-- ==== Sys2Proof/Word.lean ====
section
/-! DEFINITION. The two widths of the block: channel values and shift amounts are 8 bits (`CH_W`, `SHIFT_W`), the
packed word is 32 bits (`WORD_W`): 00_scope.md rule R6. -/

namespace Sys2Proof

/-- An 8-bit unsigned value: a channel value, a shift amount or one byte of host memory (R6, R7). -/
abbrev Byte := BitVec 8

/-- A packed 32-bit word (R6 `WORD_W`). -/
abbrev Word := BitVec 32

end Sys2Proof
end

