-- ==== Sys2Proof/Config.lean ====
section
/-! DEFINITION. What an implementation fixes (the two OPEN parameters of 00_scope.md rule R6) and the free values: the
values the spec leaves open, as constants without a body, so that no proof can see them. -/

namespace Sys2Proof

/-- The parameter `REGISTERED` (R6, decision D2): `0` is the combinational variant, `1` the single-cycle one. -/
inductive Variant where
  | combinational
  | singleCycle
  deriving DecidableEq, Repr

/-- The parameter `HOST_BYTE_ORDER` (R6, decision D11), used only by the host's word write (R37). -/
inductive ByteOrder where
  | le
  | be
  deriving DecidableEq, Repr

/-- The two OPEN parameters of R6. A model of one instance fixes both; `State` carries them, and no step changes them. -/
structure Config where
  registered    : Variant
  hostByteOrder : ByteOrder
  deriving DecidableEq, Repr

/-- FREE VALUE (log 9): a byte of a terminated call's range, which R108 leaves as "any byte values".
Applied to the counter `State.freeCount`. -/
opaque Config.freeByte : Nat → Byte

/-- FREE VALUE (log 4): what `pix_q` stands at after power-up or a loss of power, where it "holds no value" (R28, R124).
A read of it faults until the first RESET edge. -/
opaque Config.freePixel : Nat → Word

/-- FREE VALUE (log 4): what `vld_q` stands at after power-up or a loss of power (R28, R124). -/
opaque Config.freeValid : Nat → Bool

end Sys2Proof
end

