-- ==== Sys2Proof/Syntax.lean ====
section
/-! DEFINITION. The four operations of the block (30_encoding.md rule R57, one constructor per row of opcode_table.json)
and their operand bundle (R51). -/

namespace Sys2Proof

/-- The operand bundle `OPB` (R51) as its eight fields: four channel values and four shift amounts, each an unsigned
8-bit value with every value 0 to 255 legal (R15, R54, R56). -/
structure Bundle where
  b  : Byte
  g  : Byte
  r  : Byte
  a  : Byte
  sb : Byte
  sg : Byte
  sr : Byte
  sa : Byte
  deriving DecidableEq, Repr

/-- The operations of the block; "No other operation exists" (R57). IDLE and RESET take no operands, since the data
inputs have no effect on them (R62, R85, R87). -/
inductive Instr where
  /-- PACK (R64), combinational variant: one evaluation; `in_valid` only travels to `out_valid` (R22). -/
  | pack (o : Bundle) (inValid : Bool)
  /-- CAPTURE (R83), single-cycle variant: one rising edge with `CTL = 01`. -/
  | capture (o : Bundle)
  /-- IDLE (R85), single-cycle variant: one rising edge with `CTL = 00`. -/
  | idle
  /-- RESET (R87), single-cycle variant: one rising edge with `CTL = 1v`; `inValid` is the ignored bit `v`. -/
  | reset (inValid : Bool)
  deriving DecidableEq, Repr

end Sys2Proof
end

