-- ==== Sys2Proof/WellFormed.lean ====
section
/-! DEFINITION. Which operation exists in which variant (30_encoding.md rule R57). Every operand value is legal (R58), so
this is the only check an operation needs. -/

namespace Sys2Proof

/-- The variant an operation belongs to: the "variant" column of R57 and of opcode_table.json. -/
def Instr.variant : Instr → Variant
  | .pack _ _  => .combinational
  | .capture _ => .singleCycle
  | .idle      => .singleCycle
  | .reset _   => .singleCycle

/-- An operation is well-formed for a block exactly when the block's variant has it (R57). -/
def Instr.wellFormed (v : Variant) (i : Instr) : Bool :=
  decide (i.variant = v)

end Sys2Proof
end

