-- ==== Sys2Proof/Decode.lean ====
section
/-! DEFINITION. From the bits on the input ports to an operation, and back. The layout of `OPB` and `CTL` is the spec's
(30_encoding.md rules R51, R52); their order as bytes, the FRAME, is the model's (log 6): the byte that holds
`CTL[1:0]`, then the eight bytes of `OPB` from its lowest. -/

namespace Sys2Proof

/-- Why a list of bytes is no frame. No value of the bits themselves is illegal (R58). -/
inductive DecodeError where
  /-- The list is not nine bytes long (R61: every operation has one fixed length). -/
  | frameLength (n : Nat)
  deriving DecidableEq, Repr

/-- The operand bundle as one 64-bit value, `OPB = {sa, sr, sg, sb, a, r, g, b}` (R51). -/
def Bundle.toOpb (o : Bundle) : BitVec 64 :=
  o.sa ++ (o.sr ++ (o.sg ++ (o.sb ++ (o.a ++ (o.r ++ (o.g ++ o.b))))))

/-- The eight fields of a 64-bit `OPB`, each at the bit positions of R51. -/
def Bundle.ofOpb (w : BitVec 64) : Bundle where
  b  := w.extractLsb' 0 8
  g  := w.extractLsb' 8 8
  r  := w.extractLsb' 16 8
  a  := w.extractLsb' 24 8
  sb := w.extractLsb' 32 8
  sg := w.extractLsb' 40 8
  sr := w.extractLsb' 48 8
  sa := w.extractLsb' 56 8

/-- The bundle's bytes, `OPB[7:0]` first. -/
def Bundle.bytes (o : Bundle) : List Byte :=
  [o.b, o.g, o.r, o.a, o.sb, o.sg, o.sr, o.sa]

/-- The bundle of zeros: what an encoding of IDLE or RESET carries, since its data inputs have no effect (R62). -/
def Bundle.zero : Bundle := ⟨0, 0, 0, 0, 0, 0, 0, 0⟩

/-- The byte that holds the control vector `CTL = {rst, in_valid}` in its bits 1 and 0 (R52); its other bits are zero. -/
def ctlByte (rst inValid : Bool) : Byte :=
  BitVec.ofNat 8 (2 * rst.toNat + inValid.toNat)

/-- The operation a rising edge performs in the single-cycle variant: the table of R55, row by row. -/
def selectEdge (rst inValid : Bool) (o : Bundle) : Instr :=
  match rst, inValid with
  | true,  v     => .reset v
  | false, true  => .capture o
  | false, false => .idle

/-- The operation the block performs on its inputs: PACK always in the combinational variant (R53), the one `CTL` selects
in the single-cycle variant (R55). Bits of the first byte outside `CTL[1:0]` are no port and are not looked at, nor is
bit 1 in the combinational variant, which has no `rst` (R53; log 6). -/
def decode (v : Variant) (frame : List Byte) : Except DecodeError Instr :=
  match frame with
  | [ctl, b, g, r, a, sb, sg, sr, sa] =>
    match v with
    | .combinational => .ok (.pack ⟨b, g, r, a, sb, sg, sr, sa⟩ (ctl.getLsbD 0))
    | .singleCycle   => .ok (selectEdge (ctl.getLsbD 1) (ctl.getLsbD 0) ⟨b, g, r, a, sb, sg, sr, sa⟩)
  | other => .error (.frameLength other.length)

/-- The frame of an operation, from the same two layouts (R51, R52). -/
def encode : Instr → List Byte
  | .pack o v  => ctlByte false v :: o.bytes
  | .capture o => ctlByte false true :: o.bytes
  | .idle      => ctlByte false false :: Bundle.zero.bytes
  | .reset v   => ctlByte true v :: Bundle.zero.bytes

/-- Byte `k` of a number, byte 0 the least significant. -/
def byteOf (w k : Nat) : Byte :=
  BitVec.ofNat 8 (w / 256 ^ k)

/-- The variant of the opcode-table row that a word of `nbits` bits belongs to (log 6): the CTL rows have at most one
byte, or nine with their operands; the PACK row has no control vector, only the 64 bits of `OPB`. -/
def tableVariant (nbits : Nat) : Variant :=
  if (0 < nbits ∧ nbits ≤ 8) ∨ nbits = 72 then .singleCycle else .combinational

/-- The frame of a table word: `CTL` from bit 0 and `OPB` from bit 8 for a CTL row, `OPB` from bit 0 and `in_valid = 0`
for the PACK row. Bits above `nbits` are zero. -/
def tableFrame (nbits w : Nat) : List Byte :=
  let w := w % 2 ^ nbits
  match tableVariant nbits with
  | .singleCycle   => (List.range 9).map (byteOf w)
  | .combinational => ctlByte false false :: (List.range 8).map (byteOf w)

/-- The operation the decoder reads from an opcode-table word of `nbits` bits. -/
def decodeTableWord (nbits w : Nat) : Option Instr :=
  match decode (tableVariant nbits) (tableFrame nbits w) with
  | .ok i    => some i
  | .error _ => none

end Sys2Proof
end

