-- ==== Sys2Proof/Machine/State.lean ====
section
/-! DEFINITION. The state of the machine: the block's ports and registers (10_state.md), the host's memory and its call
in progress (20_memory.md, 42_buffer_composition.md), and the events still to come. Plain data throughout. -/

namespace Sys2Proof.Machine

/-- The present values of the input ports (R13): the eight data inputs, `in_valid`, and `rst`, which exists only with
`REGISTERED = 1`. Every bit is 0 or 1 at every instant (R16). -/
structure Ports where
  data    : Bundle
  inValid : Bool
  rst     : Bool
  deriving DecidableEq, Repr

/-- The arguments of `HostPack` (R93) with `cap`, the number of bytes the caller owns from `base` (R94). Addresses and
lengths are unbounded naturals (R36). -/
structure HostCall where
  base   : Nat
  length : Nat
  cap    : Nat
  sr     : Byte
  sg     : Byte
  sb     : Byte
  sa     : Byte
  deriving DecidableEq, Repr

/-- How far a call has got with a stride it has not yet written (R96, R97, R98). -/
inductive Phase where
  /-- None of its bytes is read. -/
  | unread
  /-- Its four bytes are read (R38), and no block has its word. -/
  | read (o : Bundle)
  /-- It is presented to this block and its word is not yet taken (R98). -/
  | shown (o : Bundle)
  /-- Its word is taken and not yet written back (R37). -/
  | taken (w : Word)
  deriving DecidableEq, Repr

/-- A call in progress: `work` are its strides not yet written (R95, R96), the next one first, each with how far it has
got, since a host may work on several at a time (R106). -/
structure ActiveCall where
  req  : HostCall
  work : List (Nat × Phase)
  deriving DecidableEq, Repr

/-- Who makes a call: the host of this block, or another agent (R46, R107), its calls numbered in the order in which they
begin. -/
inductive Caller where
  | host
  | other (n : Nat)
  deriving DecidableEq, Repr

/-- What the world outside the block does next (log 7). -/
inductive Event where
  /-- The host changes the input ports, with no clock edge (R81). -/
  | drive (p : Ports)
  /-- The block acts on its input ports: one rising edge (R81), or one evaluation in the combinational variant (R53). -/
  | edge
  /-- A rising edge at which `rst = 1` and the other ports are as they stand (R87, R129). -/
  | rstEdge
  /-- A consumer reads `out_valid` and `pix_out` (R86, R115). -/
  | readOut
  /-- The host calls `HostPack` (R93). -/
  | call (c : HostCall)
  /-- The host's call in progress makes its next move. -/
  | host
  /-- The host takes stride `k` next (R106). -/
  | choose (k : Nat)
  /-- Another agent calls `HostPack` (R46, R107). -/
  | otherCall (c : HostCall)
  /-- A call moves its stride `k` on (R106), or returns with none left to write. -/
  | stride (who : Caller) (k : Nat)
  /-- The host packs stride `k`, whose bytes it has read, with another block at the side of this one (R106). -/
  | elsewhere (k : Nat)
  /-- Another agent reads a byte of host memory (R46). -/
  | otherRead (addr : Nat)
  /-- Another agent writes a byte of host memory (R46). -/
  | otherWrite (addr : Nat) (v : Byte)
  /-- The process of a call in progress is terminated externally (R108). -/
  | terminate (who : Caller)
  /-- Power is lost and comes back (R124). -/
  | powerLoss
  deriving DecidableEq, Repr

/-- Host memory: the listed bytes, in rising order of address; an unlisted address reads `Memory.unlisted`. -/
abbrev Memory := List Host.Cell

/-- The machine. In the combinational variant `pixQ`, `vldQ` and `resetSeen` stand for nothing the block has (R21):
no operation of that variant and no output reads or writes them. -/
structure State where
  /-- `REGISTERED` and `HOST_BYTE_ORDER` (R6); no step changes them. -/
  cfg       : Config
  /-- The input ports (R13). -/
  ports     : Ports
  /-- `pix_q` (R23). -/
  pixQ      : Word
  /-- `vld_q` (R23). -/
  vldQ      : Bool
  /-- Whether a RESET edge has come since power-up (R28, R115). -/
  resetSeen : Bool
  /-- Host memory (R35, R36). -/
  mem       : Memory
  /-- The `HostPack` call of this block's host in progress (R96). -/
  call      : Option ActiveCall
  /-- The `HostPack` calls of other agents in the order in which they began (R46, R107); none in the place of one that is
  over. -/
  others    : List (Option ActiveCall)
  /-- The model's own: the words a consumer has taken while `out_valid = 1`, oldest first (R86, R90). -/
  consumed  : List Word
  /-- The model's own: the events to come, the next first (log 7). -/
  agenda    : List Event
  /-- The model's own: the counter the free values of `Config` are applied to (logs 4, 9). -/
  freeCount : Nat
  deriving DecidableEq, Repr

/-- The fault outcomes of R114, the model's reading of "undefined"; the hardware raises none of them. Each is safe: the
run stops where the hardware would go on with a value nobody knows. -/
inductive Fault where
  /-- Raised by reading `pix_out` or `out_valid` of the single-cycle variant before the first RESET edge (R115). Safe. -/
  | unresetRead
  /-- Raised by the start of a call with `length mod 4 ≠ 0` (R94 condition 1). Safe. -/
  | lengthNotMultipleOf4
  /-- Raised by the start of a call with `length > 0` and `base` the null address (R94 condition 2). Safe. -/
  | nullBuffer
  /-- Raised by the start of a call with `length > 0` and `base mod 4 ≠ 0` (R94 condition 3). Safe. -/
  | misalignedBuffer
  /-- Raised by the start of a call with `length > cap` (R94 condition 4). Safe. -/
  | bufferTooShort
  /-- Raised by another agent's access to a byte of the range of a call in progress, and by the start of a call whose range
  overlaps that of one in progress (R94 condition 5, R46). Safe. -/
  | dataRace
  deriving DecidableEq, Repr

/-- Why the model gives an operation no meaning. -/
inductive Refusal where
  /-- Raised by no arm at present: an operation still without a meaning. Safe. -/
  | notModelled (mnemonic : String)
  /-- Raised by every operation applied to a block of the other variant, which does not have it (R57; log 8). Safe. -/
  | notInVariant
  /-- Raised by fetching a list of bytes that is no frame; the fetch of a step never does so. Safe. -/
  | undecodable (e : DecodeError)
  deriving DecidableEq, Repr

/-- The input ports before the host drives them: all zero (log 2, DESIGN CHOICE, unsafe). -/
def Ports.quiet : Ports := ⟨Bundle.zero, false, false⟩

/-- The machine right after a RESET edge (R27), for given parameters. -/
def State.resetOf (cfg : Config) : State where
  cfg       := cfg
  ports     := Ports.quiet
  pixQ      := 0
  vldQ      := false
  resetSeen := true
  mem       := []
  call      := none
  others    := []
  consumed  := []
  agenda    := []
  freeCount := 0

/-- The machine right after reset: `pix_q = 0x00000000`, `vld_q = 0` (R27, R125). The spec leaves the two parameters
open; this state takes the single-cycle variant, the one that has a reset (R29), and LE (log 1, DESIGN CHOICE, unsafe). -/
def State.reset : State := State.resetOf ⟨.singleCycle, .le⟩

end Sys2Proof.Machine
end

