-- ==== Sys2Proof/Machine/Operands.lean ====
section
/-! DEFINITION. The datapath (40_pack_datapath.md) and every way operands are assembled: a bundle from ports, from a
stride of memory, and the frame the block samples. -/

namespace Sys2Proof.Machine

/-- `zext_32(c) << s` on unbounded naturals, `v * 2 ^ s`: no bit is lost by the shift itself (R8, R54, R56). -/
def exactShift (c s : Byte) : Nat := c.toNat * 2 ^ s.toNat

/-- The contribution term `T(c, s) = trunc_32(zext_32(c) << s)` (R65): exact first, truncated last, for every amount 0 to
255 with no second case (R66). -/
def contribution (c s : Byte) : Word := BitVec.ofNat 32 (exactShift c s)

/-- `PackWord(b, g, r, a, sb, sg, sr, sa)` (R64): the OR of the four terms, with no masking (R68). -/
def packWord (o : Bundle) : Word :=
  contribution o.a o.sa ||| contribution o.r o.sr ||| contribution o.g o.sg ||| contribution o.b o.sb

/-- The frame on the input ports: `CTL`, then `OPB` (R51, R52). In the combinational variant there is no `rst` port, so
that bit is 0 whatever the state holds for it (R13, R53). -/
def Ports.frame (v : Variant) (p : Ports) : List Byte :=
  match v with
  | .combinational => ctlByte false p.inValid :: p.data.bytes
  | .singleCycle   => ctlByte p.rst p.inValid :: p.data.bytes

/-- The ports that show a frame. Nine bytes are a frame; anything else leaves the ports quiet. -/
def Ports.ofFrame (frame : List Byte) : Ports :=
  match frame with
  | [ctl, b, g, r, a, sb, sg, sr, sa] => ⟨⟨b, g, r, a, sb, sg, sr, sa⟩, ctl.getLsbD 0, ctl.getLsbD 1⟩
  | _ => Ports.quiet

end Sys2Proof.Machine
end

