-- ==== Sys2Proof/Machine/Ops.lean ====
section
/-! DEFINITION. The named operations over memory, registers and ports. The block takes no exception and has no trap entry
or return (60_exceptions.md rules R111, R116, R117), so there is no such operation here. -/

namespace Sys2Proof.Machine

/-- What an address that nothing has written reads as (log 3, DESIGN CHOICE, unsafe). -/
def Memory.unlisted : Byte := 0

/-- `MemRead(addr, 1)`: the last byte written there, with no side effect (R38, R44). -/
def Memory.read (m : Memory) (addr : Nat) : Byte :=
  match m with
  | []      => Memory.unlisted
  | c :: m' => if c.1 = addr then c.2 else Memory.read m' addr

/-- The memory without its entry for an address. -/
def Memory.erase (m : Memory) (addr : Nat) : Memory := m.filter (fun c => c.1 != addr)

/-- A new entry, before the first entry of a higher address. -/
def Memory.insert (m : Memory) (addr : Nat) (v : Byte) : Memory :=
  match m with
  | []      => [(addr, v)]
  | c :: m' => if addr < c.1 then (addr, v) :: c :: m' else c :: Memory.insert m' addr v

/-- A one-byte write. Writing the value an unlisted address reads as removes the entry, so equal memories are equal
lists. -/
def Memory.write (m : Memory) (addr : Nat) (v : Byte) : Memory :=
  if v = Memory.unlisted then Memory.erase m addr else Memory.insert (Memory.erase m addr) addr v

/-- Bytes written one after the other, the first at `addr`. -/
def Memory.writeBytes (m : Memory) (addr : Nat) (vs : List Byte) : Memory :=
  match vs with
  | []      => m
  | v :: vs => Memory.writeBytes (Memory.write m addr v) (addr + 1) vs

/-- The canonical form: addresses strictly rising, no entry equal to what an unlisted address reads as. -/
abbrev Memory.wf (m : Memory) : Prop :=
  m.Pairwise (fun x y => x.1 < y.1) ∧ ∀ c ∈ m, c.2 ≠ Memory.unlisted

/-- The four bytes of a word, lowest address first (R37). -/
def wordBytes (order : ByteOrder) (w : Word) : List Byte :=
  match order with
  | .le => [w.extractLsb' 0 8, w.extractLsb' 8 8, w.extractLsb' 16 8, w.extractLsb' 24 8]
  | .be => [w.extractLsb' 24 8, w.extractLsb' 16 8, w.extractLsb' 8 8, w.extractLsb' 0 8]

/-- `MemWrite(addr, 4, w)` in the host's byte order (R37). -/
def Memory.writeWord (order : ByteOrder) (m : Memory) (addr : Nat) (w : Word) : Memory :=
  Memory.writeBytes m addr (wordBytes order w)

/-- The address of stride `k` (R95): `base + 4k`. -/
def strideAddr (c : HostCall) (k : Nat) : Nat := c.base + 4 * k

/-- The number of strides of a call (R95): `length / 4`. -/
def strideCount (c : HostCall) : Nat := c.length / 4

/-- Whether an address lies in `[base, base + length)`. -/
def HostCall.covers (c : HostCall) (addr : Nat) : Bool :=
  decide (c.base ≤ addr ∧ addr < c.base + c.length)

/-- Whether two calls' byte ranges have a byte in common (R46); an empty range has none. -/
def HostCall.overlaps (c d : HostCall) : Bool :=
  decide (max c.base d.base < min (c.base + c.length) (d.base + d.length))

/-- The bundle of stride `k`: its four bytes read in the fixed order b, g, r, a (R38) and the call's shifts (R96). -/
def strideBundle (m : Memory) (c : HostCall) (k : Nat) : Bundle where
  b  := Memory.read m (strideAddr c k)
  g  := Memory.read m (strideAddr c k + 1)
  r  := Memory.read m (strideAddr c k + 2)
  a  := Memory.read m (strideAddr c k + 3)
  sb := c.sb
  sg := c.sg
  sr := c.sr
  sa := c.sa

def State.setPorts (s : State) (p : Ports) : State := { s with ports := p }

/-- `pix_q <- w`, `vld_q <- v`: the only write of the block's registers by an operation (R25). -/
def State.setRegs (s : State) (w : Word) (v : Bool) : State := { s with pixQ := w, vldQ := v }

/-- A RESET edge has come: from here on the registers may be read (R28). -/
def State.markReset (s : State) : State := { s with resetSeen := true }

def State.setMem (s : State) (m : Memory) : State := { s with mem := m }

/-- The call in progress of a caller. -/
def State.callOf (s : State) (who : Caller) : Option ActiveCall :=
  match who with
  | .host    => s.call
  | .other n => (s.others[n]?).join

/-- What becomes of a caller's call: how far it has got, or, with none, that it is over. -/
def State.setCall (s : State) (who : Caller) (c : Option ActiveCall) : State :=
  match who with
  | .host    => { s with call := c }
  | .other n => { s with others := s.others.set n c }

/-- Another agent's call begins. -/
def State.addOther (s : State) (c : ActiveCall) : State := { s with others := s.others ++ [some c] }

/-- The calls in progress, whoever made them. -/
def State.running (s : State) : List HostCall := (s.call.toList ++ s.others.filterMap id).map fun c => c.req

def State.setAgenda (s : State) (es : List Event) : State := { s with agenda := es }

/-- A consumer takes a word (R86). -/
def State.consume (s : State) (w : Word) : State := { s with consumed := s.consumed ++ [w] }

/-- The free-value counter advances by `n`. -/
def State.useFree (s : State) (n : Nat) : State := { s with freeCount := s.freeCount + n }

/-- An operation's effect, in the variant that has the operation (R57); in the other variant the block has no such
operation and the model gives it no meaning (log 8). -/
def onVariant (v : Variant) (s : State) (t : State) : Host.Outcome State Fault Refusal :=
  if s.cfg.registered = v then .next t else .refused .notInVariant

/-- Power is lost and comes back (R124): in the single-cycle variant the registers hold no value again, as at power-up
(R28), which is a free value here (log 4). The combinational variant has nothing to lose (R29). That all else survives the loss
is the model's choice (log 4, DESIGN CHOICE, unsafe). -/
def State.losePower (s : State) : State :=
  match s.cfg.registered with
  | .combinational => s
  | .singleCycle   =>
    { s with pixQ := Config.freePixel s.freeCount, vldQ := Config.freeValid s.freeCount,
             resetSeen := false, freeCount := s.freeCount + 1 }

/-- The machine at power-up (R28), for given parameters. -/
def State.powerUp (cfg : Config) : State := (State.resetOf cfg).losePower

end Sys2Proof.Machine
end

