-- ==== Sys2Proof/Machine/Flags.lean ====
section
/-! DEFINITION. The block has no flags and no condition codes (10_state.md rule R19). What stands in their place are its
two outputs, the word `pix_out` and its qualifier `out_valid`, as a consumer reads them (R21, R24, R115). -/

namespace Sys2Proof.Machine

/-- Reading `pix_out`: `PackWord` of the present inputs, whatever `in_valid` is, in the combinational variant (R21, R22);
`pix_q` in the single-cycle variant (R24), a fault before the first RESET edge (R115). -/
def State.pixOut (s : State) : Except Fault Word :=
  match s.cfg.registered with
  | .combinational => .ok (packWord s.ports.data)
  | .singleCycle   => if s.resetSeen then .ok s.pixQ else .error .unresetRead

/-- Reading `out_valid`: `in_valid` in the combinational variant (R21); `vld_q` in the single-cycle variant (R24), a
fault before the first RESET edge (R115). -/
def State.outValid (s : State) : Except Fault Bool :=
  match s.cfg.registered with
  | .combinational => .ok s.ports.inValid
  | .singleCycle   => if s.resetSeen then .ok s.vldQ else .error .unresetRead

end Sys2Proof.Machine
end

