-- ==== Sys2Proof/Machine/Clocked.lean ====
section
/-! DEFINITION. CAPTURE, IDLE and RESET, the clock-edge operations of the single-cycle variant (41_clocked_ops.md). -/

namespace Sys2Proof.Machine

/-- CAPTURE (R83): `pix_q <- PackWord(b, g, r, a, sb, sg, sr, sa)`, `vld_q <- 1`. -/
def execCapture (o : Bundle) (s : State) : Host.Outcome State Fault Refusal :=
  onVariant .singleCycle s (s.setRegs (packWord o) true)

/-- IDLE (R85): `pix_q` unchanged, `vld_q <- 0`. -/
def execIdle (s : State) : Host.Outcome State Fault Refusal :=
  onVariant .singleCycle s (s.setRegs s.pixQ false)

/-- RESET (R87): `pix_q <- 0x00000000`, `vld_q <- 0`, whatever `in_valid` is (R88). After it the registers hold values
(R28). -/
def execReset (_inValid : Bool) (s : State) : Host.Outcome State Fault Refusal :=
  onVariant .singleCycle s (s.setRegs 0 false).markReset

end Sys2Proof.Machine
end

