-- ==== Sys2Proof/Machine/Pack.lean ====
section
/-! DEFINITION. PACK, the operation of the combinational variant (40_pack_datapath.md rule R64). -/

namespace Sys2Proof.Machine

/-- PACK (R64): one evaluation with the operands on the input ports. The block keeps nothing (R21): `pix_out` and
`out_valid` are then functions of those ports (`State.pixOut`, `State.outValid`). -/
def execPack (o : Bundle) (inValid : Bool) (s : State) : Host.Outcome State Fault Refusal :=
  onVariant .combinational s (s.setPorts ⟨o, inValid, s.ports.rst⟩)

end Sys2Proof.Machine
end

