-- ==== Sys2Proof/Machine/Dispatch.lean ====
section
/-! DEFINITION. The meaning of each operation, one arm per constructor of `Instr`. -/

namespace Sys2Proof.Machine

def exec (i : Instr) (s : State) : Host.Outcome State Fault Refusal :=
  match i with
  | .pack o v => Sys2Proof.Machine.execPack o v s
  | .capture o => Sys2Proof.Machine.execCapture o s
  | .idle => Sys2Proof.Machine.execIdle s
  | .reset v => Sys2Proof.Machine.execReset v s

end Sys2Proof.Machine
end

