-- ==== Sys2Proof/Machine/Fetch.lean ====
section
/-! DEFINITION. The block acting on its inputs: sample the ports, select the operation, perform it. -/

namespace Sys2Proof.Machine

/-- The bytes the block samples now. There is no program counter (R18): the operation is on the input ports. -/
def fetch (s : State) : List Byte := s.ports.frame s.cfg.registered

/-- One instant of the block: exactly one operation, the one its inputs select (R53, R55, R81). -/
def runPorts (s : State) : Host.Outcome State Fault Refusal :=
  match decode s.cfg.registered (fetch s) with
  | .ok i    => exec i s
  | .error e => .refused (.undecodable e)

/-- The state in which the block's next instant performs a given operation: the operation's frame on the ports of a block
of the row's variant, and the instant next on the agenda (log 5). -/
def placeTableWord (s : State) (nbits w : Nat) : State :=
  { s with cfg := ⟨tableVariant nbits, s.cfg.hostByteOrder⟩, ports := Ports.ofFrame (tableFrame nbits w),
           agenda := .edge :: s.agenda }

end Sys2Proof.Machine
end

