-- ==== Sys2Proof/Machine/HostPack.lean ====
section
/-! DEFINITION. The host procedure `HostPack` (42_buffer_composition.md): its preconditions, its moves one at a time as
the machine makes them, and the whole call as one function of memory (rule R96). -/

namespace Sys2Proof.Machine

/-- The first of conditions 1 to 4 of R94 that a call breaks, in the order of that table. Condition 5, a data race, is
not the call's alone: `State.turnsAway`, `otherAccess`. -/
def HostCall.precheck (c : HostCall) : Option Fault :=
  if c.length % 4 ≠ 0 then some .lengthNotMultipleOf4
  else if 0 < c.length ∧ c.base = 0 then some .nullBuffer
  else if 0 < c.length ∧ c.base % 4 ≠ 0 then some .misalignedBuffer
  else if c.cap < c.length then some .bufferTooShort
  else none

/-- A call that has just begun: every stride to do, in ascending order (R95, R96). -/
def HostCall.begun (c : HostCall) : ActiveCall := ⟨c, (List.range (strideCount c)).map fun k => (k, .unread)⟩

/-- Why a call may not begin: conditions 1 to 4 of R94 before any access, then the data race with a call in progress whose
range overlaps (condition 5, R46). -/
def State.turnsAway (s : State) (c : HostCall) : Option Fault :=
  match c.precheck with
  | some f => some f
  | none   => if s.running.any fun d => c.overlaps d then some .dataRace else none

/-- The host begins a call (R93). -/
def startCall (c : HostCall) (s : State) : Host.Outcome State Fault Refusal :=
  match s.turnsAway c with
  | some f => .fault f
  | none   => .next (s.setCall .host (some c.begun))

/-- Another agent begins a call (R46, R107). -/
def startOther (c : HostCall) (s : State) : Host.Outcome State Fault Refusal :=
  match s.turnsAway c with
  | some f => .fault f
  | none   => .next (s.addOther c.begun)

def Phase.isShown (p : Phase) : Bool :=
  match p with
  | .unread  => false
  | .read _  => false
  | .shown _ => true
  | .taken _ => false

/-- The strides a call has not yet written. -/
def ActiveCall.left (c : ActiveCall) : List Nat := c.work.map Prod.fst

/-- How far the call has got with stride `k`; none if it has written it, or never had it. -/
def ActiveCall.phase (c : ActiveCall) (k : Nat) : Option Phase := c.work.lookup k

/-- Whether a stride of the call is presented to this block and its word not yet taken. -/
def ActiveCall.busy (c : ActiveCall) : Bool := c.work.any fun e => e.2.isShown

/-- Stride `k` is now so far. -/
def ActiveCall.put (c : ActiveCall) (k : Nat) (p : Phase) : ActiveCall :=
  ⟨c.req, c.work.map fun e => if e.1 = k then (k, p) else e⟩

/-- Stride `k` is written. -/
def ActiveCall.done (c : ActiveCall) (k : Nat) : ActiveCall := ⟨c.req, c.work.filter fun e => e.1 != k⟩

/-- Stride `k` before the others, if it is to do (R106). -/
def ActiveCall.pick (c : ActiveCall) (k : Nat) : ActiveCall :=
  ⟨c.req, (c.work.filter fun e => e.1 == k) ++ c.work.filter fun e => !(e.1 == k)⟩

/-- The stride the call moves next when no event says otherwise: the one presented to the block, else the first to do. -/
def ActiveCall.next (c : ActiveCall) : Option Nat :=
  match c.work.find? fun e => e.2.isShown with
  | some e => some e.1
  | none   => c.work.head?.map Prod.fst

/-- The caller reads the four bytes of stride `k` (R38), from the one memory of all agents: what any of them has written is
seen at once, a call that has returned among them, though R47 leaves open whether another agent sees its writes (log 16,
DESIGN CHOICE, unsafe). -/
def readStride (who : Caller) (c : ActiveCall) (k : Nat) (s : State) : State :=
  s.setCall who (some (c.put k (.read (strideBundle s.mem c.req k))))

/-- The caller has a block other than this one pack a stride (R96, R106): two blocks share no state (R122), and of the
other the model has the word alone (log 15). -/
def packElsewhere (who : Caller) (c : ActiveCall) (k : Nat) (o : Bundle) (s : State) : State :=
  s.setCall who (some (c.put k (.taken (packWord o))))

/-- The host's stride `k` packed by another block at the side of this one (R106): one it has read, and not presented
here. -/
def besideStride (c : ActiveCall) (k : Nat) (s : State) : State :=
  match c.phase k with
  | some (.read o)  => packElsewhere .host c k o s
  | some .unread    => s
  | some (.shown _) => s
  | some (.taken _) => s
  | none            => s

/-- The caller writes stride `k`'s word (R37), and is done with the stride. Another agent's word is written in this host's
byte order too, though R37 and R122 do not say that several hosts share one (log 17, DESIGN CHOICE, unsafe). -/
def writeStride (who : Caller) (c : ActiveCall) (k : Nat) (w : Word) (s : State) : State :=
  (s.setMem (Memory.writeWord s.cfg.hostByteOrder s.mem (strideAddr c.req k) w)).setCall who (some (c.done k))

/-- The host presents a stride it has read, with `in_valid = 1`, `rst = 0`; the block performs one operation on it, a PACK
or a CAPTURE (R96, R98). While the word of another stride is still to be taken the host waits: presenting would overwrite
it (R98). -/
def showStride (c : ActiveCall) (k : Nat) (o : Bundle) (s : State) : Host.Outcome State Fault Refusal :=
  if c.busy then .next s else
  match runPorts (s.setPorts ⟨o, true, false⟩) with
  | .next t    => .next (t.setCall .host (some (c.put k (.shown o))))
  | .fault f   => .fault f
  | .refused r => .refused r

/-- The host looks for the word of the stride it has presented: while `out_valid = 1` it takes `pix_out` (R98) and lowers
`in_valid` (log 7, DESIGN CHOICE). With `out_valid = 0` the word was lost to a RESET, and the stride is to be presented
again (R129). What the host then drives until it does so the spec leaves open: here the ports stay as they are, `in_valid`
still 1, so that an edge before the stride is presented again captures it (log 7, DESIGN CHOICE, unsafe). -/
def takeStride (c : ActiveCall) (k : Nat) (o : Bundle) (s : State) : Host.Outcome State Fault Refusal :=
  match s.outValid, s.pixOut with
  | .error f, _      => .fault f
  | _, .error f      => .fault f
  | .ok false, _     => .next (s.setCall .host (some (c.put k (.read o))))
  | .ok true, .ok w  =>
    .next ((s.setPorts ⟨s.ports.data, false, s.ports.rst⟩).setCall .host (some (c.put k (.taken w))))

/-- A call moves its stride `k` on: reads it, has it packed, takes its word, writes it back, one of these a move. This
block is the host's; another agent's call has its own (R122). A stride that is not to do is not moved. -/
def moveStride (who : Caller) (c : ActiveCall) (k : Nat) (s : State) : Host.Outcome State Fault Refusal :=
  match c.phase k, who with
  | none, _                 => .next s
  | some .unread, _         => .next (readStride who c k s)
  | some (.read o), .host   => showStride c k o s
  | some (.read o), .other _ => .next (packElsewhere who c k o s)
  | some (.shown o), .host  => takeStride c k o s
  | some (.shown o), .other _ => .next (packElsewhere who c k o s)
  | some (.taken w), _      => .next (writeStride who c k w s)

/-- A call with no stride left returns (R96); else it moves stride `k`. -/
def callMove (who : Caller) (c : ActiveCall) (k : Nat) (s : State) : Host.Outcome State Fault Refusal :=
  match c.work with
  | []     => .next (s.setCall who none)
  | _ :: _ => moveStride who c k s

/-- The next move of the host's call when no event says otherwise. -/
def hostMove (c : ActiveCall) (s : State) : Host.Outcome State Fault Refusal :=
  match c.next with
  | none   => .next (s.setCall .host none)
  | some k => moveStride .host c k s

/-- A call is terminated from outside (R108): every byte of its range becomes a free value (log 9). -/
def terminateCall (who : Caller) (s : State) : State :=
  match s.callOf who with
  | none   => s
  | some c =>
    ((s.setMem (Memory.writeBytes s.mem c.req.base
      ((List.range c.req.length).map (fun i => Config.freeByte (s.freeCount + i))))).setCall who none).useFree c.req.length

/-- One stride of R96 as a function of memory: read the four bytes, pack, write the word. -/
def packStride (order : ByteOrder) (c : HostCall) (m : Memory) (k : Nat) : Memory :=
  Memory.writeWord order m (strideAddr c k) (packWord (strideBundle m c k))

/-- The strides of a list, one after the other. -/
def packStrides (order : ByteOrder) (c : HostCall) (m : Memory) (ks : List Nat) : Memory :=
  ks.foldl (packStride order c) m

/-- The loop of R96 as a function of memory: the strides `0, 1, …, length/4 - 1` in ascending order. -/
def hostPackMem (order : ByteOrder) (c : HostCall) (m : Memory) : Memory :=
  packStrides order c m (List.range (strideCount c))

end Sys2Proof.Machine
end

