-- ==== Sys2Proof/Machine/Environment.lean ====
section
/-! DEFINITION. What each event of the agenda does, and who moves next (log 7). -/

namespace Sys2Proof.Machine

/-- The calling host is busy until its call returns, since the call "returns control synchronously" (R47): its own events
wait, everybody else's do not. The clock and `rst` are not the host's, so their edges do not wait. -/
def Event.waits : Event → Bool
  | .drive _        => true
  | .edge           => false
  | .rstEdge        => false
  | .readOut        => false
  | .call _         => true
  | .host           => false
  | .choose _       => false
  | .otherCall _    => false
  | .stride _ _     => false
  | .elsewhere _    => false
  | .otherRead _    => false
  | .otherWrite _ _ => false
  | .terminate _    => false
  | .powerLoss      => false

/-- Whether the range of a call in progress, whoever made it, covers an address. -/
def State.callCovers (s : State) (addr : Nat) : Bool := s.running.any fun c => c.covers addr

/-- A consumer reads `out_valid` and `pix_out`, and takes the word as a pixel only with `out_valid = 1` (R86). Before the
first RESET edge the read faults (R115). -/
def readOutputs (s : State) : Host.Outcome State Fault Refusal :=
  match s.outValid, s.pixOut with
  | .error f, _     => .fault f
  | _, .error f     => .fault f
  | .ok false, _    => .next s
  | .ok true, .ok w => .next (s.consume w)

/-- The access of an agent outside every call: a data race on a byte of the range of a call in progress (R46), else its
plain effect. A call itself keeps to its own range (R42), and no two ranges overlap (`State.turnsAway`). -/
def otherAccess (addr : Nat) (s t : State) : Host.Outcome State Fault Refusal :=
  if s.callCovers addr then .fault .dataRace else .next t

/-- The effect of one event. -/
def handle (e : Event) (s : State) : Host.Outcome State Fault Refusal :=
  match e with
  | .drive p            => .next (s.setPorts p)
  | .edge               => runPorts s
  | .rstEdge            => exec (.reset s.ports.inValid) s
  | .readOut            => readOutputs s
  | .call c             => startCall c s
  | .host               => match s.call with
    | none   => .next s
    | some c => hostMove c s
  | .choose k           => .next (s.setCall .host (s.call.map (fun c => c.pick k)))
  | .otherCall c        => startOther c s
  | .stride who k       => match s.callOf who with
    | none   => .next s
    | some c => callMove who c k s
  | .elsewhere k        => match s.call with
    | none   => .next s
    | some c => .next (besideStride c k s)
  | .otherRead addr     => otherAccess addr s s
  | .otherWrite addr v  => otherAccess addr s (s.setMem (Memory.write s.mem addr v))
  | .terminate who      => .next (terminateCall who s)
  | .powerLoss          => .next s.losePower

/-- One step of the machine: the next event; or, with none, or with one that waits for the call in progress, the next
move of that call; or, with neither event nor call of this host, one instant of the block on its ports as they stand. -/
def advance (s : State) : Host.Outcome State Fault Refusal :=
  match s.agenda, s.call with
  | [], none          => runPorts s
  | [], some c        => hostMove c s
  | e :: rest, none   => handle e (s.setAgenda rest)
  | e :: rest, some c => if e.waits then hostMove c s else handle e (s.setAgenda rest)

end Sys2Proof.Machine
end

