-- ==== Sys2Proof/Safety.lean ====
section
/-! DEFINITION. What counts as a sound state and a safe run, in the terms the statements use: the operation a step
performs, the invariant of every state, and what a host call in progress has done so far. -/

namespace Sys2Proof.Machine

/-- The operation the inputs `p` select (R53, the table of R55). -/
def selected (v : Variant) (p : Ports) : Instr :=
  match v with
  | .combinational => .pack p.data p.inValid
  | .singleCycle   => selectEdge p.rst p.inValid p.data

/-- The stride of the host's call in progress that the next step moves, if the next step is a move of that call. -/
def hostStride (s : State) : Option Nat :=
  match s.call, s.agenda with
  | none, _                         => none
  | some c, []                      => c.next
  | some c, .host :: _              => c.next
  | some _, .stride .host k :: _    => some k
  | some c, e :: _                  => if e.waits then c.next else none

/-- The operation the block performs when the host's call moves its stride `k`: one on a stride it has read and now
presents (R98), else none. -/
def strideOperation (c : ActiveCall) (k : Nat) (s : State) : Option Instr :=
  match c.phase k with
  | some (.read o)  => if c.busy then none else some (selected s.cfg.registered ⟨o, true, false⟩)
  | some .unread    => none
  | some (.shown _) => none
  | some (.taken _) => none
  | none            => none

/-- The operation the block performs when the host's call makes its move of a step. -/
def hostOperation (s : State) : Option Instr :=
  match s.call, hostStride s with
  | some c, some k => strideOperation c k s
  | _, _           => none

/-- Whose call the next step moves on, or ends, or changes the order of. -/
def mover (s : State) : Option Caller :=
  match s.agenda, s.call with
  | .stride who _ :: _, _  => some who
  | .terminate who :: _, _ => some who
  | .host :: _, _          => some .host
  | .choose _ :: _, _      => some .host
  | .elsewhere _ :: _, _   => some .host
  | e :: _, some _         => if e.waits then some .host else none
  | [], some _             => some .host
  | _, none                => none

/-- The operation the block performs in the next step, if that step is an instant of the block. -/
def nextOperation (s : State) : Option Instr :=
  match s.agenda, s.call with
  | [], none         => some (selected s.cfg.registered s.ports)
  | .edge :: _, _    => some (selected s.cfg.registered s.ports)
  | .rstEdge :: _, _ => some (.reset s.ports.inValid)
  | _, _             => hostOperation s

/-- Whether the next step is a loss of power (R124). -/
def losesPower (s : State) : Bool := s.agenda.head? = some .powerLoss

/-- The operations the block performs in the first `n` steps from a state, in order. -/
def operations (n : Nat) (s : State) : List Instr :=
  match n with
  | 0     => []
  | n + 1 =>
    (nextOperation s).toList ++
      match step s with
      | .next t    => operations n t
      | .fault _   => []
      | .refused _ => []

/-- In the first `n` steps from a state the block performs no operation and loses no power. -/
def Quiet (n : Nat) (s : State) : Prop :=
  match n with
  | 0     => True
  | n + 1 => nextOperation s = none ∧ losesPower s = false ∧ ∀ t, step s = .next t → Quiet n t

/-- Whether bit `k` of the word lies in the field `[s+7:s]`, cut at bit 31, of a channel with shift amount `s` (R70). -/
abbrev fieldCovers (s : Byte) (k : Nat) : Prop := s.toNat ≤ k ∧ k ≤ s.toNat + 7 ∧ k ≤ 31

/-- The four channels of a bundle with their shift amounts, in the order of R64. -/
def channels (o : Bundle) : List (Byte × Byte) := [(o.a, o.sa), (o.r, o.sr), (o.g, o.sg), (o.b, o.sb)]

/-- The single-cycle variant's registers set to given values, and nothing else. -/
def State.withRegs (s : State) (w : Word) (v r : Bool) : State := { s with pixQ := w, vldQ := v, resetSeen := r }

/-- An outcome with its next state changed by a function. -/
def mapNext (f : State → State) (o : Host.Outcome State Fault Refusal) : Host.Outcome State Fault Refusal :=
  match o with
  | .next t    => .next (f t)
  | .fault r   => .fault r
  | .refused r => .refused r

/-- The strides of two calls (`false` the first call's, `true` the second's) made in one interleaved order. -/
def packTwo (order : ByteOrder) (c d : HostCall) (m : Memory) (ks : List (Bool × Nat)) : Memory :=
  ks.foldl (fun m k => packStride order (if k.1 then d else c) m k.2) m

/-- The four bytes of memory from an address, lowest first (R10). -/
def fourBytes (m : Memory) (addr : Nat) : List Byte :=
  [Memory.read m addr, Memory.read m (addr + 1), Memory.read m (addr + 2), Memory.read m (addr + 3)]

/-- The block's registers are as they were. -/
def SameBlock (s t : State) : Prop := t.pixQ = s.pixQ ∧ t.vldQ = s.vldQ ∧ t.resetSeen = s.resetSeen

/-- From `s` to `t` a caller's call has got so far with stride `k`, done with it if `p` is none, and no further with any
other; no other call has changed. -/
def CallMoved (s t : State) (who : Caller) (k : Nat) (p : Option Phase) : Prop :=
  ∃ c d, s.callOf who = some c ∧ t.callOf who = some d ∧ d.req = c.req ∧ d.phase k = p ∧
    (∀ j, j ≠ k → d.phase j = c.phase j) ∧ ∀ w, w ≠ who → t.callOf w = s.callOf w

/-- A call in progress is sound: it passed the checks of R94, each stride to do is one of its strides (R95) and stands
once, and at most one is presented to the block. -/
abbrev ActiveCall.Sound (c : ActiveCall) : Prop :=
  c.req.precheck = none ∧ c.left.Nodup ∧ (∀ k ∈ c.left, k < strideCount c.req) ∧
  c.work.Pairwise fun x y => ¬ (x.2.isShown = true ∧ y.2.isShown = true)

/-- The invariant of every state: memory is canonical; every call in progress is sound, and another agent's has no stride
on this block; and no two calls in progress have a byte in common (R46). -/
abbrev State.Inv (s : State) : Prop :=
  Memory.wf s.mem ∧
  (∀ c ∈ s.call, c.Sound) ∧
  (∀ o ∈ s.others, ∀ c ∈ o, c.Sound ∧ c.busy = false) ∧
  (∀ c ∈ s.call, ∀ o ∈ s.others, ∀ d ∈ o, c.req.overlaps d.req = false) ∧
  s.others.Pairwise fun x y => ∀ c ∈ x, ∀ d ∈ y, c.req.overlaps d.req = false

/-- What a call holds for a stride it has not yet written is right, `m0` being memory when the call began: the bytes it has
read are the original ones; a bundle it has presented is on the data ports, and the word the single-cycle variant shows
as valid is that bundle's (R98); the word it has taken is the one R100 gives. -/
def PhaseRight (s : State) (c : ActiveCall) (m0 : Memory) (k : Nat) (p : Phase) : Prop :=
  match p with
  | .unread  => True
  | .read o  => o = strideBundle m0 c.req k
  | .shown o => o = strideBundle m0 c.req k ∧ s.ports.data = o ∧
      (s.cfg.registered = .singleCycle → s.vldQ = true → s.resetSeen = true → s.pixQ = packWord o)
  | .taken w => w = packWord (strideBundle m0 c.req k)

/-- What a caller's call in progress has done so far, `m0` being memory when it began: a stride not yet written has its
original bytes, and what the call holds for it is right; every other stride has the bytes R100 gives. -/
def State.Progress (s : State) (who : Caller) (m0 : Memory) : Prop :=
  ∀ c ∈ s.callOf who,
    (∀ k < strideCount c.req,
      fourBytes s.mem (strideAddr c.req k) =
        if k ∈ c.left then fourBytes m0 (strideAddr c.req k)
        else wordBytes s.cfg.hostByteOrder (packWord (strideBundle m0 c.req k))) ∧
    ∀ e ∈ c.work, PhaseRight s c m0 e.1 e.2

end Sys2Proof.Machine
end

