-- ==== Sys2Proof/Certificates/Slice0/Obligations.lean ====
section
/-! DEFINITION. The statements for the provers, in the order of the spec's files: encodings, datapath, outputs and
operations, the machine's steps, reset and power, memory, the host call. -/

open Sys2Proof Sys2Proof.Machine

/-! ### Encodings -/

/-- 30_encoding.md R51: the bit positions of the eight fields of `OPB`, its concatenation, and its low half as the source
pixel read little-endian. -/
def Obligations.OperandBundleLayout : Prop :=
  (∀ o : Bundle,
    o.toOpb = o.sa ++ (o.sr ++ (o.sg ++ (o.sb ++ (o.a ++ (o.r ++ (o.g ++ o.b)))))) ∧
    o.toOpb.extractLsb' 0 8 = o.b ∧ o.toOpb.extractLsb' 8 8 = o.g ∧
    o.toOpb.extractLsb' 16 8 = o.r ∧ o.toOpb.extractLsb' 24 8 = o.a ∧
    o.toOpb.extractLsb' 32 8 = o.sb ∧ o.toOpb.extractLsb' 40 8 = o.sg ∧
    o.toOpb.extractLsb' 48 8 = o.sr ∧ o.toOpb.extractLsb' 56 8 = o.sa ∧
    (o.toOpb.extractLsb' 0 32).toNat =
      o.b.toNat + 2 ^ 8 * o.g.toNat + 2 ^ 16 * o.r.toNat + 2 ^ 24 * o.a.toNat ∧
    Bundle.ofOpb o.toOpb = o) ∧
  ∀ w : BitVec 64, (Bundle.ofOpb w).toOpb = w

/-- 30_encoding.md R55: the operation the inputs select, row by row. -/
def Obligations.OperationSelection : Prop :=
  ∀ s : State,
    (s.cfg.registered = .combinational →
      decode s.cfg.registered (fetch s) = .ok (.pack s.ports.data s.ports.inValid)) ∧
    (s.cfg.registered = .singleCycle → s.ports.rst = true →
      decode s.cfg.registered (fetch s) = .ok (.reset s.ports.inValid)) ∧
    (s.cfg.registered = .singleCycle → s.ports.rst = false → s.ports.inValid = true →
      decode s.cfg.registered (fetch s) = .ok (.capture s.ports.data)) ∧
    (s.cfg.registered = .singleCycle → s.ports.rst = false → s.ports.inValid = false →
      decode s.cfg.registered (fetch s) = .ok .idle)

/-- 30_encoding.md R58: whatever is on the inputs, the instant at which the block acts on them ends in a next state, in
both variants. -/
def Obligations.EveryInputIsLegal : Prop :=
  ∀ (s : State) (rest : List Event), s.agenda = .edge :: rest → ∃ t, step s = .next t

/-- Decode and encode agree, for every operation and both variants: the frame of an operation decodes to it, every nine
bytes decode to an operation of the variant, and other lengths are rejected by name. The frame's byte order is the
model's (log 6). -/
def Obligations.DecodeEncodeAgree : Prop :=
  (∀ (v : Variant) (i : Instr), i.wellFormed v = true → decode v (encode i) = .ok i) ∧
  (∀ (v : Variant) (f : List Byte), f.length = 9 →
    ∃ i, decode v f = .ok i ∧ i.wellFormed v = true ∧ decode v (encode i) = .ok i) ∧
  ∀ (v : Variant) (f : List Byte), f.length ≠ 9 → decode v f = .error (.frameLength f.length)

/-- Words numbered as the opcode table numbers them decode with every operand at every value: `OPB` alone for PACK, `CTL`
in the low byte under `OPB` for the clock-edge operations, whose data bits IDLE and RESET ignore. How the table's bits
are laid out as bytes is the model's (log 6). -/
def Obligations.TableWordRoundTrip : Prop :=
  (∀ o : Bundle, decodeTableWord 64 o.toOpb.toNat = some (.pack o false)) ∧
  (∀ o : Bundle, decodeTableWord 72 (o.toOpb ++ 1#8).toNat = some (.capture o)) ∧
  (∀ w : BitVec 64, decodeTableWord 72 (w ++ 0#8).toNat = some .idle) ∧
  ∀ (w : BitVec 64), decodeTableWord 72 (w ++ 2#8).toNat = some (.reset false) ∧
    decodeTableWord 72 (w ++ 3#8).toNat = some (.reset true)

/-- A few words written out from the encodings of R51 and R52: `CTL` 01, 00, 10 and 11, and the `OPB` of vectors V-P1 and
V-P2 of 95_test_vectors.md. -/
def Obligations.SampleWordsDecodeRight : Prop :=
  decodeTableWord 8 0b01 = some (.capture Bundle.zero) ∧
  decodeTableWord 8 0b00 = some .idle ∧
  decodeTableWord 8 0b10 = some (.reset false) ∧
  decodeTableWord 8 0b11 = some (.reset true) ∧
  decodeTableWord 64 0x1810080040302010 = some (.pack ⟨0x10, 0x20, 0x30, 0x40, 0, 8, 16, 24⟩ false) ∧
  decodeTableWord 72 0x18100800FFFF000001 = some (.capture ⟨0x00, 0x00, 0xFF, 0xFF, 0, 8, 16, 24⟩)

/-! ### The pack datapath -/

/-- 40_pack_datapath.md R65: the contribution term, as the truncated exact shift and bit by bit. -/
def Obligations.ContributionTermBits : Prop :=
  ∀ c s : Byte,
    contribution c s = BitVec.ofNat 32 ((c.setWidth 32).toNat * 2 ^ s.toNat) ∧
    ∀ k < 32, (contribution c s).getLsbD k =
      (decide (s.toNat ≤ k ∧ k ≤ s.toNat + 7) && c.getLsbD (k - s.toNat))

/-- 40_pack_datapath.md R66: the three ranges of shift amounts, and that the bits cut off leave no trace: every operation
that packs them completes, with no other change than its result. -/
def Obligations.ShiftAmountRanges : Prop :=
  (∀ c s : Byte, s.toNat ≤ 24 →
    (contribution c s).extractLsb' s.toNat 8 = c ∧
    ∀ k, k < s.toNat ∨ s.toNat + 7 < k → (contribution c s).getLsbD k = false) ∧
  (∀ c s : Byte, 25 ≤ s.toNat → s.toNat ≤ 31 →
    (contribution c s).extractLsb' s.toNat (32 - s.toNat) = c.extractLsb' 0 (32 - s.toNat) ∧
    ∀ k < s.toNat, (contribution c s).getLsbD k = false) ∧
  (∀ c s : Byte, 32 ≤ s.toNat → contribution c s = 0x00000000#32) ∧
  (∀ (o : Bundle) (v : Bool) (s : State), s.cfg.registered = .combinational →
    exec (.pack o v) s = .next { s with ports := ⟨o, v, s.ports.rst⟩ }) ∧
  ∀ (o : Bundle) (s : State), s.cfg.registered = .singleCycle →
    exec (.capture o) s = .next { s with pixQ := packWord o, vldQ := true }

/-- 40_pack_datapath.md R67: each bit of `pix_out` after a PACK, and the circuit form of a term. -/
def Obligations.CircuitFormAgrees : Prop :=
  (∀ (o : Bundle) (v : Bool) (s : State), s.cfg.registered = .combinational →
    ∃ t w, exec (.pack o v) s = .next t ∧ t.pixOut = .ok w ∧
      ∀ k < 32, w.getLsbD k =
        (channels o).any fun p => decide (p.2.toNat ≤ k ∧ k ≤ p.2.toNat + 7) && p.1.getLsbD (k - p.2.toNat)) ∧
  ∀ c s : Byte, contribution c s =
    if s.extractLsb' 5 3 ≠ 0#3 then 0x00000000#32
    else BitVec.ofNat 32 (c.toNat * 2 ^ (s.extractLsb' 0 5).toNat)

/-- 40_pack_datapath.md R68: the merge is the OR of the four terms and nothing else, bit by bit where fields overlap. -/
def Obligations.MergeHasNoMasking : Prop :=
  ∀ o : Bundle,
    packWord o = contribution o.a o.sa ||| contribution o.r o.sr ||| contribution o.g o.sg ||| contribution o.b o.sb ∧
    ∀ k, (packWord o).getLsbD k = (channels o).any fun p => (contribution p.1 p.2).getLsbD k

/-- 40_pack_datapath.md R69: the four terms may be merged in any order. -/
def Obligations.MergeOrderIrrelevant : Prop :=
  ∀ (o : Bundle) (ts : List Word),
    ts.Perm ((channels o).map fun p => contribution p.1 p.2) → ts.foldl (· ||| ·) 0 = packWord o

/-- 40_pack_datapath.md R70: a bit that one channel's field alone covers is that channel's bit, so with disjoint fields
every channel stands in the word as R66 places it; where fields overlap the bits are ORed, and no bit outside the overlap
is changed by it. -/
def Obligations.ChannelIndependence : Prop :=
  ∀ o : Bundle,
    (∀ (pre post : List (Byte × Byte)) (p : Byte × Byte), channels o = pre ++ p :: post →
      ∀ k, fieldCovers p.2 k → (∀ q ∈ pre ++ post, ¬ fieldCovers q.2 k) →
        (packWord o).getLsbD k = p.1.getLsbD (k - p.2.toNat)) ∧
    ((channels o).Pairwise (fun p q => ∀ k, ¬ (fieldCovers p.2 k ∧ fieldCovers q.2 k)) →
      ∀ p ∈ channels o, ∀ k, fieldCovers p.2 k → (packWord o).getLsbD k = (contribution p.1 p.2).getLsbD k) ∧
    ∀ k, (packWord o).getLsbD k =
      ((channels o).filter fun p => decide (fieldCovers p.2 k)).any fun p => p.1.getLsbD (k - p.2.toNat)

/-- 40_pack_datapath.md R71: all shifts zero, with the rule's example. -/
def Obligations.AllShiftsZero : Prop :=
  (∀ b g r a : Byte,
    packWord ⟨b, g, r, a, 0, 0, 0, 0⟩ = (a ||| r ||| g ||| b).setWidth 32 ∧
    (packWord ⟨b, g, r, a, 0, 0, 0, 0⟩).extractLsb' 8 24 = 0 ∧
    (packWord ⟨b, g, r, a, 0, 0, 0, 0⟩).extractLsb' 0 8 = a ||| r ||| g ||| b) ∧
  packWord ⟨0x10, 0x20, 0x30, 0x40, 0, 0, 0, 0⟩ = 0x00000070#32

/-- 40_pack_datapath.md R72: all shifts 32 or more. -/
def Obligations.AllShiftsLarge : Prop :=
  ∀ o : Bundle, 32 ≤ o.sb.toNat → 32 ≤ o.sg.toNat → 32 ≤ o.sr.toNat → 32 ≤ o.sa.toNat →
    packWord o = 0x00000000#32

/-- 40_pack_datapath.md R73: the standard layout; its four fields are disjoint and the word is `{a, r, g, b}`. -/
def Obligations.StandardLayout : Prop :=
  (∀ b g r a : Byte, packWord ⟨b, g, r, a, 0, 8, 16, 24⟩ = a ++ (r ++ (g ++ b))) ∧
  ([24, 16, 8, 0] : List Byte).Pairwise fun x y => ∀ k, ¬ (fieldCovers x k ∧ fieldCovers y k)

/-- 40_pack_datapath.md R76: PACK is total, and two evaluations with equal `OPB` give equal words, whatever the states
they start from. -/
def Obligations.PackDependsOnOperandsAlone : Prop :=
  ∀ (o : Bundle) (v v' : Bool) (s s' : State),
    s.cfg.registered = .combinational → s'.cfg.registered = .combinational →
    ∃ t t' w, exec (.pack o v) s = .next t ∧ exec (.pack o v') s' = .next t' ∧ t.pixOut = .ok w ∧ t'.pixOut = .ok w

/-! ### The operations and the outputs -/

/-- 40_pack_datapath.md R64: PACK, for every operand and every state of the combinational variant, with the rule's
example. -/
def Obligations.PackResult : Prop :=
  (∀ (o : Bundle) (v : Bool) (s : State), s.cfg.registered = .combinational →
    ∃ t, exec (.pack o v) s = .next t ∧
      t.pixOut = .ok (contribution o.a o.sa ||| contribution o.r o.sr ||| contribution o.g o.sg |||
        contribution o.b o.sb) ∧
      t.outValid = .ok v) ∧
  (∀ c s : Byte, contribution c s = BitVec.ofNat 32 (c.toNat * 2 ^ s.toNat)) ∧
  packWord ⟨0x10, 0x20, 0x30, 0x40, 0, 8, 16, 24⟩ = 0x40302010#32

/-- 10_state.md R21, R22: in the combinational variant the outputs are functions of the inputs at the same instant, and
`in_valid` has no effect on `pix_out`. -/
def Obligations.CombinationalOutputs : Prop :=
  ∀ s : State, s.cfg.registered = .combinational →
    s.pixOut = .ok (packWord s.ports.data) ∧ s.outValid = .ok s.ports.inValid ∧
    (∀ s' : State, s'.cfg.registered = .combinational → s'.ports = s.ports →
      s'.pixOut = s.pixOut ∧ s'.outValid = s.outValid) ∧
    ∀ v : Bool, (s.setPorts ⟨s.ports.data, v, s.ports.rst⟩).pixOut = s.pixOut

/-- 41_clocked_ops.md R83: CAPTURE, for every operand and every state of the single-cycle variant, with the rule's
example; once a RESET has come, the outputs show the word. -/
def Obligations.CaptureResult : Prop :=
  (∀ (o : Bundle) (s : State), s.cfg.registered = .singleCycle →
    exec (.capture o) s = .next { s with pixQ := packWord o, vldQ := true } ∧
    (s.resetSeen = true → ∃ t, exec (.capture o) s = .next t ∧ t.pixOut = .ok (packWord o) ∧ t.outValid = .ok true)) ∧
  packWord ⟨0x00, 0x00, 0xFF, 0xFF, 0, 8, 16, 24⟩ = 0xFFFF0000#32

/-- 41_clocked_ops.md R85: IDLE keeps `pix_q` and clears `vld_q`, in every state of the single-cycle variant; once a RESET
has come, `pix_out` still shows the held word and `out_valid` is 0. -/
def Obligations.IdleResult : Prop :=
  ∀ s : State, s.cfg.registered = .singleCycle →
    exec .idle s = .next { s with vldQ := false } ∧
    (s.resetSeen = true → ∃ t, exec .idle s = .next t ∧ t.pixOut = s.pixOut ∧ t.outValid = .ok false)

/-- 41_clocked_ops.md R87: RESET, with either value of `in_valid`, in every state of the single-cycle variant; a change of
the inputs with no rising edge, `rst` raised or not, changes the ports alone (R81). -/
def Obligations.ResetResult : Prop :=
  (∀ (v : Bool) (s : State), s.cfg.registered = .singleCycle →
    exec (.reset v) s = .next { s with pixQ := 0x00000000#32, vldQ := false, resetSeen := true } ∧
    ∃ t, exec (.reset v) s = .next t ∧ t.pixOut = .ok 0x00000000#32 ∧ t.outValid = .ok false) ∧
  ∀ (s : State) (p : Ports) (rest : List Event), s.call = none → s.agenda = .drive p :: rest →
    step s = .next { s with ports := p, agenda := rest }

/-- 41_clocked_ops.md R88: a pixel presented at a RESET edge is dropped: the result is the RESET state, the same for every
pixel. -/
def Obligations.ResetDropsPixel : Prop :=
  ∀ (s : State) (rest : List Event), s.cfg.registered = .singleCycle → s.agenda = .edge :: rest →
    s.ports.rst = true → s.ports.inValid = true →
    ∃ t, step s = .next t ∧ t.pixQ = 0x00000000#32 ∧ t.vldQ = false ∧ t.pixOut = .ok 0x00000000#32 ∧
      t.outValid = .ok false ∧
      ∀ o : Bundle, step (s.setPorts ⟨o, true, true⟩) = .next (t.setPorts ⟨o, true, true⟩)

/-- 41_clocked_ops.md section 2 (CAPTURE corner cases): of two CAPTURE edges the second overwrites the first, and its word
does not depend on it. -/
def Obligations.CapturesOverwrite : Prop :=
  ∀ (o o' : Bundle) (s : State), s.cfg.registered = .singleCycle →
    ∃ t u, exec (.capture o) s = .next t ∧ exec (.capture o') t = .next u ∧ exec (.capture o') s = .next u ∧
      u.pixQ = packWord o' ∧ u.vldQ = true

/-- 41_clocked_ops.md R92: no operation's result depends on `vld_q`, and only IDLE's depends on `pix_q`; none waits. -/
def Obligations.NoOperationReadsState : Prop :=
  ∀ (s : State) (w : Word) (v : Bool), s.cfg.registered = .singleCycle →
    (∀ o : Bundle, ∃ t, exec (.capture o) s = .next t ∧ exec (.capture o) (s.setRegs w v) = .next t) ∧
    (∀ i : Bool, ∃ t, exec (.reset i) s = .next t ∧ exec (.reset i) (s.setRegs w v) = .next t) ∧
    (∃ t, exec .idle s = .next t ∧ exec .idle (s.setRegs s.pixQ v) = .next t ∧
      exec .idle (s.setRegs w v) = .next (t.setRegs w false))

/-- The frame of the four operations (their rules R64, R83, R85, R87 and "Nothing else writes them", R25): what each
leaves unchanged. An operation that gives a next state touches no byte of memory, no host state and no parameter; PACK
touches no register, the clock-edge operations no port, IDLE not `pix_q`, and only RESET marks that a RESET has come. -/
def Obligations.OperationFrame : Prop :=
  ∀ (i : Instr) (s t : State), exec i s = .next t →
    t.cfg = s.cfg ∧ t.call = s.call ∧ t.others = s.others ∧ t.consumed = s.consumed ∧ t.agenda = s.agenda ∧
    t.freeCount = s.freeCount ∧ (∀ a, Memory.read t.mem a = Memory.read s.mem a) ∧
    t.ports.rst = s.ports.rst ∧
    (i.variant = .singleCycle → t.ports = s.ports) ∧
    (i.variant = .combinational → t.pixQ = s.pixQ ∧ t.vldQ = s.vldQ ∧ t.resetSeen = s.resetSeen) ∧
    (i = .idle → t.pixQ = s.pixQ) ∧
    ((∀ v, i ≠ .reset v) → t.resetSeen = s.resetSeen)

/-- Where an operation stops: applied to a block of the variant that does not have it (30_encoding.md R57 lists which has
which; that the model then refuses is the model's choice, log 8), and nowhere else. -/
def Obligations.StopsOnlyOutsideItsVariant : Prop :=
  ∀ (i : Instr) (s : State),
    (i.wellFormed s.cfg.registered = false → exec i s = .refused .notInVariant) ∧
    (i.wellFormed s.cfg.registered = true → ∃ t, exec i s = .next t)

/-! ### The steps of the machine -/

/-- A step runs the decoded operation: with nothing else to do or with an edge next, the operation on the input ports, the
edge leaving the agenda; at a RESET edge, RESET; and when the host's call presents a stride it has read, the operation on
the ports it drives. That the agenda says which of these a step is, is the model's (log 7). -/
def Obligations.StepRunsDecodedOperation : Prop :=
  (∀ (s : State) (i : Instr), s.agenda = [] → s.call = none → decode s.cfg.registered (fetch s) = .ok i →
    step s = exec i s) ∧
  (∀ (s : State) (i : Instr) (rest : List Event), s.agenda = .edge :: rest →
    decode s.cfg.registered (fetch s) = .ok i → step s = exec i (s.setAgenda rest)) ∧
  (∀ (s : State) (rest : List Event), s.agenda = .rstEdge :: rest →
    step s = exec (.reset s.ports.inValid) (s.setAgenda rest)) ∧
  ∀ (s u : State) (c : ActiveCall) (k : Nat) (o : Bundle) (i : Instr),
    s.agenda = [] → s.call = some c → c.next = some k → c.phase k = some (.read o) → c.busy = false →
    decode s.cfg.registered (fetch (s.setPorts ⟨o, true, false⟩)) = .ok i →
    exec i (s.setPorts ⟨o, true, false⟩) = .next u →
    step s = .next (u.setCall .host (some (c.put k (.shown o))))

/-- A table word that is placed is what the next step runs, in a state that differs from the given one in the variant and
the input ports alone. How a word is placed is the model's (log 5). -/
def Obligations.PlacedWordRuns : Prop :=
  ∀ (s : State) (nbits w : Nat) (i : Instr), decodeTableWord nbits w = some i →
    ∃ p, step (s.withFetchWord nbits w) =
      exec i { s with cfg := ⟨i.variant, s.cfg.hostByteOrder⟩, ports := p } ∧
      p.data = (match i with | .pack o _ => o | .capture o => o | .idle => p.data | .reset _ => p.data)

/-- 41_clocked_ops.md R82: the step function of the single-cycle variant at a rising edge. -/
def Obligations.EdgeStepFunction : Prop :=
  ∀ (s : State) (rest : List Event), s.cfg.registered = .singleCycle → s.agenda = .edge :: rest →
    ∃ t, step s = .next t ∧
      (t.pixQ, t.vldQ) =
        if s.ports.rst = true then (0x00000000#32, false)
        else if s.ports.inValid = true then (packWord s.ports.data, true)
        else (s.pixQ, false)

/-- 10_state.md R25 and 41_clocked_ops.md R81 (section 1 of each): over every step but a loss of power, the registers are
written only by the operation the block performs in that step, and are constant in a step with none. -/
def Obligations.RegistersFollowOperations : Prop :=
  ∀ s t : State, s.cfg.registered = .singleCycle → losesPower s = false → step s = .next t →
    (t.pixQ, t.vldQ) =
      match nextOperation s with
      | none              => (s.pixQ, s.vldQ)
      | some (.capture o) => (packWord o, true)
      | some .idle        => (s.pixQ, false)
      | some (.reset _)   => (0x00000000#32, false)
      | some (.pack _ _)  => (s.pixQ, s.vldQ)

/-- 10_state.md R24: the outputs are the state, and change only at a rising edge (a loss of power apart). -/
def Obligations.OutputsAreTheState : Prop :=
  ∀ s : State, s.cfg.registered = .singleCycle →
    (s.resetSeen = true → s.pixOut = .ok s.pixQ ∧ s.outValid = .ok s.vldQ) ∧
    ∀ t, losesPower s = false → nextOperation s = none → step s = .next t →
      t.pixOut = s.pixOut ∧ t.outValid = s.outValid

/-- 41_clocked_ops.md section 3 (latency): a pixel captured at an edge is on the outputs right after that edge and for as
many steps as no other operation comes. -/
def Obligations.OneEdgeLatency : Prop :=
  ∀ (s : State) (rest : List Event), s.cfg.registered = .singleCycle → s.resetSeen = true →
    s.agenda = .edge :: rest → s.ports.rst = false → s.ports.inValid = true →
    ∃ t, step s = .next t ∧
      ∀ (n : Nat) (u : State), Quiet n t → Host.Core.run core n t = .next u →
        u.pixOut = .ok (packWord s.ports.data) ∧ u.outValid = .ok true

/-- 41_clocked_ops.md R91: what the single-cycle variant shows after a CAPTURE edge is what the combinational variant
shows while its inputs are the same. The registers may be read, a RESET having come (R28). -/
def Obligations.VariantsAgree : Prop :=
  ∀ (s c : State) (rest : List Event),
    s.cfg.registered = .singleCycle → c.cfg.registered = .combinational → s.resetSeen = true →
    s.agenda = .edge :: rest → s.ports.rst = false → s.ports.inValid = true →
    c.ports.data = s.ports.data → c.ports.inValid = true →
    ∃ t, step s = .next t ∧
      ∀ (n : Nat) (u : State), Quiet n t → Host.Core.run core n t = .next u →
        u.pixOut = c.pixOut ∧ u.outValid = .ok true ∧ c.outValid = .ok true

/-- 10_state.md section 3: the combinational variant has no state. Whatever stands in the registers of the other variant
changes no step and no output, and no step changes it. -/
def Obligations.CombinationalHasNoState : Prop :=
  ∀ (s : State) (w : Word) (v r : Bool), s.cfg.registered = .combinational →
    step (s.withRegs w v r) = mapNext (fun t => t.withRegs w v r) (step s) ∧
    (s.withRegs w v r).pixOut = s.pixOut ∧ (s.withRegs w v r).outValid = s.outValid ∧
    ∀ t, step s = .next t → t.pixQ = s.pixQ ∧ t.vldQ = s.vldQ ∧ t.resetSeen = s.resetSeen

/-- 20_memory.md section 2 and 00_scope.md section 4: no step switches the byte order or the variant. -/
def Obligations.ParametersNeverChange : Prop :=
  ∀ s t : State, step s = .next t → t.cfg = s.cfg

/-- 41_clocked_ops.md section 2 (`pix_out` when `out_valid = 0`): a consumer takes a word only in a cycle with
`out_valid = 1`. That the model keeps the words taken is the model's (log 10). -/
def Obligations.ConsumerTakesValidWords : Prop :=
  ∀ (s : State) (rest : List Event), s.agenda = .readOut :: rest →
    (∀ w, s.outValid = .ok true → s.pixOut = .ok w → step s = .next ((s.setAgenda rest).consume w)) ∧
    (s.outValid = .ok false → step s = .next (s.setAgenda rest))

/-! ### Reset and power -/

/-- 10_state.md section 5: after a RESET edge `vld_q = 0` and `pix_q = 0x00000000`. That the model's reset state is such a
state for every choice of the parameters, the combinational variant's included, which has nothing to reset, and which
parameters it takes, is the model's choice (log 1). -/
def Obligations.ResetValues : Prop :=
  (∀ (v : Bool) (s t : State), s.cfg.registered = .singleCycle → exec (.reset v) s = .next t →
    t.vldQ = false ∧ t.pixQ = 0x00000000#32) ∧
  ∀ cfg : Config, (State.resetOf cfg).vldQ = false ∧ (State.resetOf cfg).pixQ = 0x00000000#32 ∧
    State.reset = State.resetOf State.reset.cfg

/-- 70_reset_and_hazards.md R125: a RESET takes effect at a rising edge with `rst = 1`, leaves both outputs at zero, and
holding `rst = 1` repeats the same RESET. -/
def Obligations.HeldResetRepeats : Prop :=
  ∀ (s : State) (rest : List Event), s.cfg.registered = .singleCycle → s.agenda = .edge :: .edge :: rest →
    s.ports.rst = true →
    ∃ t, step s = .next t ∧ t.pixQ = 0x00000000#32 ∧ t.vldQ = false ∧
      t.pixOut = .ok 0x00000000#32 ∧ t.outValid = .ok false ∧ step t = .next (t.setAgenda rest)

/-- 60_exceptions.md section 2: before the first RESET edge since power-up a read of either output of the single-cycle variant
faults, a consumer's and that of a call's host looking for the word of the stride it has presented (R98; the move is
log 7's); the combinational variant's never does. -/
def Obligations.UnresetReadFaults : Prop :=
  (∀ (s : State) (rest : List Event), s.cfg.registered = .singleCycle → s.resetSeen = false →
    s.pixOut = .error .unresetRead ∧ s.outValid = .error .unresetRead ∧
    (s.agenda = .readOut :: rest → step s = .fault .unresetRead)) ∧
  (∀ (s : State) (c : ActiveCall) (k : Nat) (o : Bundle), s.cfg.registered = .singleCycle → s.resetSeen = false →
    s.call = some c → hostStride s = some k → c.phase k = some (.shown o) → step s = .fault .unresetRead) ∧
  (∀ order : ByteOrder, (State.powerUp ⟨.singleCycle, order⟩).resetSeen = false) ∧
  (∀ (s : State) (rest : List Event), s.cfg.registered = .combinational → s.agenda = .readOut :: rest →
    ∃ t, step s = .next t) ∧
  ∀ (s : State) (c : ActiveCall) (k : Nat) (o : Bundle), s.cfg.registered = .combinational →
    s.call = some c → hostStride s = some k → c.phase k = some (.shown o) → ∃ t, step s = .next t

/-- 10_state.md section 5 (power-up values): the interval in which a read faults ends in a step that performs RESET and in
no other, and begins again only with a loss of power. -/
def Obligations.OnlyResetEndsPowerUp : Prop :=
  ∀ s t : State, s.cfg.registered = .singleCycle → step s = .next t →
    (s.resetSeen = false → (t.resetSeen = true ↔ ∃ v, nextOperation s = some (.reset v))) ∧
    (s.resetSeen = true → (t.resetSeen = false ↔ losesPower s = true))

/-- 60_exceptions.md section 5 (power states): after a loss of power a read faults, as at power-up; the combinational variant
loses nothing. What the registers then stand at is a free value, of which nothing is said. That the ports, host memory,
the calls and everything else outside the block's registers survive the loss is the model's choice (log 4 for both). -/
def Obligations.PowerLossClears : Prop :=
  ∀ (s : State) (rest : List Event), s.agenda = .powerLoss :: rest →
    ∃ t, step s = .next t ∧ t.cfg = s.cfg ∧ t.ports = s.ports ∧ t.mem = s.mem ∧ t.call = s.call ∧
      t.others = s.others ∧ t.consumed = s.consumed ∧ t.agenda = rest ∧
      (s.cfg.registered = .singleCycle → t.pixOut = .error .unresetRead ∧ t.outValid = .error .unresetRead) ∧
      (s.cfg.registered = .combinational → t = s.setAgenda rest)

/-! ### Memory -/

/-- 20_memory.md R37: where each byte of a word lands, in both byte orders; a word write changes no other byte. -/
def Obligations.WordWriteByteOrder : Prop :=
  ∀ (m : Memory) (addr : Nat) (w : Word),
    fourBytes (Memory.writeWord .le m addr w) addr =
      [w.extractLsb' 0 8, w.extractLsb' 8 8, w.extractLsb' 16 8, w.extractLsb' 24 8] ∧
    fourBytes (Memory.writeWord .be m addr w) addr =
      [w.extractLsb' 24 8, w.extractLsb' 16 8, w.extractLsb' 8 8, w.extractLsb' 0 8] ∧
    ∀ (order : ByteOrder) (a : Nat), a < addr ∨ addr + 4 ≤ a →
      Memory.read (Memory.writeWord order m addr w) a = Memory.read m a

/-- 20_memory.md section 3 (side effects): a read gives the last byte written there; a write keeps memory canonical, and
canonical memories that read the same are the same data. -/
def Obligations.MemoryReadsBackWrites : Prop :=
  (∀ (m : Memory) (a b : Nat) (v : Byte),
    Memory.read (Memory.write m a v) b = if b = a then v else Memory.read m b) ∧
  (∀ (m : Memory) (a : Nat) (v : Byte), Memory.wf m → Memory.wf (Memory.write m a v)) ∧
  ∀ m m' : Memory, Memory.wf m → Memory.wf m' → (∀ a, Memory.read m a = Memory.read m' a) → m = m'

/-- The reset state and the power-up state meet the invariant, for every choice of the parameters. -/
def Obligations.ResetMeetsInvariant : Prop :=
  State.reset.Inv ∧ ∀ cfg : Config, (State.resetOf cfg).Inv ∧ (State.powerUp cfg).Inv

/-- Every step keeps the invariant: memory stays canonical; a call in progress has passed the checks of R94 and has only
strides of its own to do, each once, at most one of them on the block and none of another agent's; and no two calls in
progress have a byte in common. -/
def Obligations.StepKeepsInvariant : Prop :=
  ∀ s t : State, s.Inv → step s = .next t → t.Inv

/-! ### The host call -/

/-- 42_buffer_composition.md section 1 and 20_memory.md section 4: conditions 1 to 4, in order, each with its fault; then the
data race of a call whose range overlaps that of one in progress; and else the call starts, the host's or another agent's.
With `length = 0` only condition 1 could apply, and does not. An access by an agent outside every call faults at a byte of
the range of a call in progress, whoever's it is, and has its plain effect anywhere else, with no call in progress
everywhere. That a race faults at the racing start or access is the model's reading (log 14). -/
def Obligations.CallPreconditions : Prop :=
  (∀ (s : State) (c : HostCall) (rest : List Event), s.call = none → s.agenda = .call c :: rest →
    step s =
      if c.length % 4 ≠ 0 then .fault .lengthNotMultipleOf4
      else if 0 < c.length ∧ c.base = 0 then .fault .nullBuffer
      else if 0 < c.length ∧ c.base % 4 ≠ 0 then .fault .misalignedBuffer
      else if c.cap < c.length then .fault .bufferTooShort
      else if ∃ d ∈ s.running, max c.base d.base < min (c.base + c.length) (d.base + d.length) then .fault .dataRace
      else .next ((s.setAgenda rest).setCall .host (some ⟨c, (List.range (c.length / 4)).map fun k => (k, .unread)⟩))) ∧
  (∀ (s : State) (c : HostCall) (rest : List Event), s.agenda = .otherCall c :: rest →
    step s =
      if c.length % 4 ≠ 0 then .fault .lengthNotMultipleOf4
      else if 0 < c.length ∧ c.base = 0 then .fault .nullBuffer
      else if 0 < c.length ∧ c.base % 4 ≠ 0 then .fault .misalignedBuffer
      else if c.cap < c.length then .fault .bufferTooShort
      else if ∃ d ∈ s.running, max c.base d.base < min (c.base + c.length) (d.base + d.length) then .fault .dataRace
      else .next ((s.setAgenda rest).addOther ⟨c, (List.range (c.length / 4)).map fun k => (k, .unread)⟩)) ∧
  (∀ (s : State) (a : Nat) (rest : List Event), s.agenda = .otherRead a :: rest →
    step s = if ∃ d ∈ s.running, d.base ≤ a ∧ a < d.base + d.length then .fault .dataRace
      else .next (s.setAgenda rest)) ∧
  (∀ (s : State) (a : Nat) (v : Byte) (rest : List Event), s.agenda = .otherWrite a v :: rest →
    step s = if ∃ d ∈ s.running, d.base ≤ a ∧ a < d.base + d.length then .fault .dataRace
      else .next ((s.setAgenda rest).setMem (Memory.write s.mem a v))) ∧
  (∀ (s : State) (d : HostCall), d ∈ s.running ↔ ∃ who c, s.callOf who = some c ∧ c.req = d) ∧
  ∀ (s : State) (c : HostCall) (rest : List Event), c.length = 0 →
    (s.call = none ∧ s.agenda = .call c :: rest ∨ s.agenda = .otherCall c :: rest) → ∃ t, step s = .next t

/-- 20_memory.md section 2 and 42_buffer_composition.md section 2: reading and presenting a stride. The four bytes at fixed
offsets become b, g, r, a, and no byte is written; presented, with `in_valid = 1` and `rst = 0`, they are what the block
performs one PACK or CAPTURE on. That these are moves of their own, and that the host waits while another stride's word is
still to be taken, is the model's (log 7). -/
def Obligations.StrideIsPresented : Prop :=
  ∀ (s : State) (c : ActiveCall) (k : Nat), s.call = some c → hostStride s = some k →
    (c.phase k = some .unread →
      ∃ t, step s = .next t ∧ nextOperation s = none ∧ t.mem = s.mem ∧ t.ports = s.ports ∧ SameBlock s t ∧
        CallMoved s t .host k (some (.read
          ⟨Memory.read s.mem (c.req.base + 4 * k), Memory.read s.mem (c.req.base + 4 * k + 1),
           Memory.read s.mem (c.req.base + 4 * k + 2), Memory.read s.mem (c.req.base + 4 * k + 3),
           c.req.sb, c.req.sg, c.req.sr, c.req.sa⟩))) ∧
    ∀ o, c.phase k = some (.read o) →
      (c.busy = false →
        ∃ t, step s = .next t ∧ t.mem = s.mem ∧ t.ports = ⟨o, true, false⟩ ∧
          CallMoved s t .host k (some (.shown o)) ∧
          (s.cfg.registered = .combinational → nextOperation s = some (.pack o true)) ∧
          (s.cfg.registered = .singleCycle → nextOperation s = some (.capture o) ∧
            t.pixQ = packWord o ∧ t.vldQ = true)) ∧
      (c.busy = true → ∃ es, step s = .next (s.setAgenda es) ∧ nextOperation s = none)

/-- 42_buffer_composition.md section 2: taking the word of the stride presented, and writing it back. With `out_valid = 1`
the word on `pix_out` is taken; the word taken is written to the stride in the host's byte order, no other byte changes,
and the stride is done. That these are moves of their own, and that the host lowers `in_valid` on taking the word, is the
model's (log 7). -/
def Obligations.StrideIsWrittenBack : Prop :=
  ∀ (s : State) (c : ActiveCall) (k : Nat), s.call = some c → hostStride s = some k →
    (∀ o w, c.phase k = some (.shown o) → s.outValid = .ok true → s.pixOut = .ok w →
      ∃ t, step s = .next t ∧ t.mem = s.mem ∧ t.ports = ⟨s.ports.data, false, s.ports.rst⟩ ∧ SameBlock s t ∧
        CallMoved s t .host k (some (.taken w))) ∧
    ∀ w, c.phase k = some (.taken w) →
      ∃ t, step s = .next t ∧
        fourBytes t.mem (c.req.base + 4 * k) = wordBytes s.cfg.hostByteOrder w ∧
        (∀ a, a < c.req.base + 4 * k ∨ c.req.base + 4 * k + 4 ≤ a → Memory.read t.mem a = Memory.read s.mem a) ∧
        t.ports = s.ports ∧ SameBlock s t ∧ CallMoved s t .host k none

/-- 42_buffer_composition.md section 4 (order of strides; parallel calls): strides packed by other blocks, which share no
state with this one: the host's at the side of this block, and those of another agent's call, which it reads, packs and
writes back, a move each, and returns from when none is left. This block, and every byte but those of the stride written,
stay as they are. That these are moves of their own, each at an event of its own, is the model's (logs 7, 11 and 14). Of
the other blocks the model has the words alone (log 15); one memory and one byte order for all agents are its choices
(logs 16 and 17). -/
def Obligations.StridesOnOtherBlocks : Prop :=
  (∀ (s : State) (c : ActiveCall) (k : Nat) (o : Bundle) (rest : List Event),
    s.call = some c → s.agenda = .elsewhere k :: rest → c.phase k = some (.read o) →
    ∃ t, step s = .next t ∧ t.mem = s.mem ∧ t.ports = s.ports ∧ SameBlock s t ∧
      CallMoved s t .host k (some (.taken (packWord o)))) ∧
  ∀ (s : State) (n : Nat) (c : ActiveCall) (k : Nat) (rest : List Event),
    s.callOf (.other n) = some c → s.agenda = .stride (.other n) k :: rest →
    ∃ t, step s = .next t ∧ t.call = s.call ∧ t.ports = s.ports ∧ SameBlock s t ∧
      (c.work = [] → t.callOf (.other n) = none ∧ t.mem = s.mem) ∧
      (c.phase k = some .unread →
        CallMoved s t (.other n) k (some (.read (strideBundle s.mem c.req k))) ∧ t.mem = s.mem) ∧
      (∀ o, c.phase k = some (.read o) →
        CallMoved s t (.other n) k (some (.taken (packWord o))) ∧ t.mem = s.mem) ∧
      ∀ w, c.phase k = some (.taken w) →
        CallMoved s t (.other n) k none ∧
        fourBytes t.mem (strideAddr c.req k) = wordBytes s.cfg.hostByteOrder w ∧
        ∀ a, a < strideAddr c.req k ∨ strideAddr c.req k + 4 ≤ a → Memory.read t.mem a = Memory.read s.mem a

/-- 70_reset_and_hazards.md section 1: a RESET during a call changes no byte, and a word it cleared before the host took it is
lost, so that the host's next two moves of that stride leave memory as it was and present the stride again. The moves are
the model's (log 7). -/
def Obligations.LostStrideIsPresentedAgain : Prop :=
  (∀ (v : Bool) (s t : State), exec (.reset v) s = .next t → t.mem = s.mem) ∧
  ∀ (s : State) (c : ActiveCall) (k : Nat) (o : Bundle) (rest : List Event),
    s.cfg.registered = .singleCycle → s.agenda = .rstEdge :: .stride .host k :: .stride .host k :: rest →
    s.call = some c → c.Sound → c.phase k = some (.shown o) →
    ∃ t u v, step s = .next t ∧ step t = .next u ∧ step u = .next v ∧
      t.mem = s.mem ∧ u.mem = s.mem ∧ v.mem = s.mem ∧
      t.outValid = .ok false ∧ CallMoved t u .host k (some (.read o)) ∧
      CallMoved u v .host k (some (.shown o)) ∧ v.pixQ = packWord o ∧ v.vldQ = true

/-- 42_buffer_composition.md section 3 (zero length): a call with length zero, at any base address, returns having changed
nothing. That it does so in two steps is the model's (log 7). -/
def Obligations.ZeroLengthCall : Prop :=
  ∀ (s : State) (c : HostCall), s.call = none → s.agenda = [.call c] → c.length = 0 →
    Host.Core.run core 2 s = .next (s.setAgenda [])

/-- 42_buffer_composition.md section 3 (final contents, bytes outside): a call that passes the checks of R94, overlaps no call
in progress and is disturbed by nobody returns, and leaves in every stride the bytes R100 gives and every byte outside the
buffer as it was. The single-cycle variant has had the RESET that R98 asks for. The number of steps is the model's
(log 7). -/
def Obligations.HostPackFinalContents : Prop :=
  ∀ (s : State) (c : HostCall), s.call = none → s.agenda = [.call c] →
    c.length % 4 = 0 → (0 < c.length → c.base ≠ 0 ∧ c.base % 4 = 0) → c.length ≤ c.cap →
    (∀ d ∈ s.running, c.overlaps d = false) →
    (s.cfg.registered = .singleCycle → s.resetSeen = true) →
    ∃ t, Host.Core.run core (4 * (c.length / 4) + 2) s = .next t ∧ t.call = none ∧ t.agenda = [] ∧ t.others = s.others ∧
      (∀ k < c.length / 4,
        fourBytes t.mem (c.base + 4 * k) =
          wordBytes s.cfg.hostByteOrder (packWord
            ⟨Memory.read s.mem (c.base + 4 * k), Memory.read s.mem (c.base + 4 * k + 1),
             Memory.read s.mem (c.base + 4 * k + 2), Memory.read s.mem (c.base + 4 * k + 3),
             c.sb, c.sg, c.sr, c.sa⟩)) ∧
      ∀ a, a < c.base ∨ c.base + c.length ≤ a → Memory.read t.mem a = Memory.read s.mem a

/-- 70_reset_and_hazards.md section 3 (buffer-pack time): in such a call the operations of the block are one PACK or one
CAPTURE of each stride's original bytes, and no other, in ascending order. The number of steps, and the order, are the
model's (logs 7 and 11). -/
def Obligations.OneOperationPerStride : Prop :=
  ∀ (s : State) (c : HostCall), s.call = none → s.agenda = [.call c] → c.precheck = none →
    (∀ d ∈ s.running, c.overlaps d = false) →
    (s.cfg.registered = .singleCycle → s.resetSeen = true) →
    operations (4 * strideCount c + 2) s = (List.range (strideCount c)).map fun k =>
      match s.cfg.registered with
      | .combinational => .pack (strideBundle s.mem c k) true
      | .singleCycle   => .capture (strideBundle s.mem c k)

/-- 42_buffer_composition.md sections 2 to 4 (final contents, order of strides, parallel calls) as an invariant of every step,
for a call of the host or of another agent: whatever comes between its moves (strides in another order or several at a
time, other calls, RESET edges, clock edges, reads, other agents' accesses outside the range, a loss of power), a stride
not yet written has its original bytes and every other has its packed bytes. A call begins so, and when it returns every
stride is packed, as it would be alone. The host may take any stride to do next. The form of moves and events is the
model's (logs 7, 11, 14, 15), and so are one memory and one byte order for all agents (logs 16, 17). -/
def Obligations.HostCallProgress : Prop :=
  (∀ (s t : State) (who : Caller) (m0 : Memory), s.Inv → s.Progress who m0 → s.callOf who ≠ none → step s = .next t →
    t.Progress who m0 ∧
    ∀ c, s.callOf who = some c → t.callOf who = none → s.agenda.head? ≠ some (.terminate who) →
      t.mem = s.mem ∧ ∀ k < strideCount c.req,
        fourBytes t.mem (strideAddr c.req k) =
          wordBytes t.cfg.hostByteOrder (packWord (strideBundle m0 c.req k))) ∧
  (∀ (s t : State) (who : Caller), s.callOf who = none → step s = .next t → t.callOf who ≠ none →
    t.Progress who s.mem) ∧
  ∀ (s : State) (c : ActiveCall) (k : Nat) (rest : List Event),
    s.call = some c → s.agenda = .choose k :: rest → k ∈ c.left → c.busy = false →
    ∃ t d, step s = .next t ∧ t.call = some d ∧ d.next = some k ∧ d.req = c.req ∧ d.work.Perm c.work

/-- 42_buffer_composition.md R101 (with R42 of 20_memory.md): no step changes a byte outside the buffers of the calls in
progress, and with no call no step changes a byte, the write of an agent outside every call apart. -/
def Obligations.OnlyTheBufferIsWritten : Prop :=
  ∀ (s t : State) (a : Nat), s.Inv → step s = .next t →
    (∀ v, s.agenda.head? ≠ some (.otherWrite a v)) → s.callCovers a = false →
    Memory.read t.mem a = Memory.read s.mem a

/-- 42_buffer_composition.md section 4 (order of strides): the loop of R96 gives the same memory for every order of its
strides. -/
def Obligations.StridesInAnyOrder : Prop :=
  ∀ (order : ByteOrder) (c : HostCall) (m : Memory) (ks : List Nat),
    ks.Perm (List.range (strideCount c)) →
    ∀ a, Memory.read (packStrides order c m ks) a = Memory.read (hostPackMem order c m) a

/-- 42_buffer_composition.md section 4 (parallel calls on stripes) and 20_memory.md section 4: calls on disjoint ranges do not
interact. In the machine, a step that is no move of a call leaves the call and every byte of its range as they are,
whatever other calls do. As functions of memory, two calls' strides interleaved in any way each give the result they would
give alone, all of them in one byte order (log 17). -/
def Obligations.DisjointCallsDoNotInteract : Prop :=
  (∀ (s t : State) (who : Caller) (c : ActiveCall), s.Inv → s.callOf who = some c → step s = .next t →
    mover s ≠ some who →
    t.callOf who = some c ∧ ∀ a, c.req.covers a = true → Memory.read t.mem a = Memory.read s.mem a) ∧
  ∀ (order : ByteOrder) (c d : HostCall) (m : Memory) (ks : List (Bool × Nat)),
    c.base + c.length ≤ d.base ∨ d.base + d.length ≤ c.base →
    ((ks.filter fun k => !k.1).map Prod.snd).Perm (List.range (strideCount c)) →
    ((ks.filter fun k => k.1).map Prod.snd).Perm (List.range (strideCount d)) →
    ∀ a,
      (c.covers a = true → Memory.read (packTwo order c d m ks) a = Memory.read (hostPackMem order c m) a) ∧
      (d.covers a = true → Memory.read (packTwo order c d m ks) a = Memory.read (hostPackMem order d m) a) ∧
      (c.covers a = false → d.covers a = false → Memory.read (packTwo order c d m ks) a = Memory.read m a)

/-- 42_buffer_composition.md R104: a stride's final bytes depend on its own original bytes and the four shifts alone: not on
any other byte, nor on where the call's buffer lies, how long it is or which of its strides this is. -/
def Obligations.StrideIndependence : Prop :=
  ∀ (order : ByteOrder) (c c' : HostCall) (m m' : Memory) (k k' : Nat),
    k < strideCount c → k' < strideCount c' →
    c.sr = c'.sr → c.sg = c'.sg → c.sb = c'.sb → c.sa = c'.sa →
    fourBytes m (strideAddr c k) = fourBytes m' (strideAddr c' k') →
    fourBytes (hostPackMem order c m) (strideAddr c k) = fourBytes (hostPackMem order c' m') (strideAddr c' k')

/-- 42_buffer_composition.md R105: with the standard shifts a little-endian call is the identity, and so idempotent; a
big-endian one reverses every stride, two restore it, and it is not idempotent whenever a stride is no palindrome. -/
def Obligations.StandardShiftsIdempotence : Prop :=
  ∀ (c : HostCall) (m : Memory), c.sr = 16 → c.sg = 8 → c.sb = 0 → c.sa = 24 →
    (∀ a, Memory.read (hostPackMem .le c m) a = Memory.read m a) ∧
    (∀ a, Memory.read (hostPackMem .le c (hostPackMem .le c m)) a = Memory.read (hostPackMem .le c m) a) ∧
    (∀ k < strideCount c,
      fourBytes (hostPackMem .be c m) (strideAddr c k) = (fourBytes m (strideAddr c k)).reverse) ∧
    (∀ a, Memory.read (hostPackMem .be c (hostPackMem .be c m)) a = Memory.read m a) ∧
    ∀ k < strideCount c, fourBytes m (strideAddr c k) ≠ (fourBytes m (strideAddr c k)).reverse →
      ∃ a, Memory.read (hostPackMem .be c (hostPackMem .be c m)) a ≠ Memory.read (hostPackMem .be c m) a

/-- 42_buffer_composition.md section 4 (termination): a call terminated from outside, the host's or another agent's, is over,
its range holds free values (log 9), of which nothing else is said, and every other byte and the block are as they were. -/
def Obligations.TerminationLeavesAnyBytes : Prop :=
  ∀ (s : State) (who : Caller) (c : ActiveCall) (rest : List Event),
    s.callOf who = some c → s.agenda = .terminate who :: rest →
    ∃ t, step s = .next t ∧ t.callOf who = none ∧ (∀ w, w ≠ who → t.callOf w = s.callOf w) ∧ t.agenda = rest ∧
      t.cfg = s.cfg ∧ t.ports = s.ports ∧ SameBlock s t ∧ t.consumed = s.consumed ∧
      (∀ i < c.req.length, Memory.read t.mem (c.req.base + i) = Config.freeByte (s.freeCount + i)) ∧
      ∀ a, c.req.covers a = false → Memory.read t.mem a = Memory.read s.mem a
end

