-- ==== Sys2Proof/Laws/Calls.lean ====
section
/-! SUPPORT. How far a call has got with each stride, after each change of it: one lemma per view per change. -/

namespace Sys2Proof.Machine

/-- What the call holds for a stride is one of its entries. -/
theorem ActiveCall.mem_of_phase {c : ActiveCall} {k : Nat} {p : Phase} (h : c.phase k = some p) : (k, p) ∈ c.work := by
  obtain ⟨l, r, e, -⟩ := List.lookup_eq_some_iff.1 h
  simp [e]

/-- The strides to do are those for which the call holds something. -/
theorem ActiveCall.phase_isSome (c : ActiveCall) (k : Nat) : (c.phase k).isSome = true ↔ k ∈ c.left := by
  obtain ⟨req, work⟩ := c
  simp only [ActiveCall.phase, ActiveCall.left]
  induction work with
  | nil => simp
  | cons e w ih =>
    obtain ⟨i, q⟩ := e
    rw [List.lookup_cons]
    by_cases h : k = i <;> simp [h, beq_eq_false_iff_ne.2, ih, List.map_cons, List.mem_cons]

@[simp] theorem ActiveCall.put_req (c : ActiveCall) (k : Nat) (p : Phase) : (c.put k p).req = c.req := rfl
@[simp] theorem ActiveCall.done_req (c : ActiveCall) (k : Nat) : (c.done k).req = c.req := rfl
@[simp] theorem ActiveCall.pick_req (c : ActiveCall) (k : Nat) : (c.pick k).req = c.req := rfl

@[simp] theorem ActiveCall.put_left (c : ActiveCall) (k : Nat) (p : Phase) : (c.put k p).left = c.left := by
  simp only [ActiveCall.left, ActiveCall.put, List.map_map]
  refine List.map_congr_left fun e _ => ?_
  simp only [Function.comp]
  split <;> simp_all

@[simp] theorem ActiveCall.done_left (c : ActiveCall) (k : Nat) : (c.done k).left = c.left.filter fun j => j != k := by
  simp only [ActiveCall.left, ActiveCall.done, List.filter_map]; rfl

theorem ActiveCall.pick_perm (c : ActiveCall) (k : Nat) : (c.pick k).work.Perm c.work :=
  List.filter_append_perm _ _

theorem ActiveCall.pick_left (c : ActiveCall) (k : Nat) : (c.pick k).left.Perm c.left := (c.pick_perm k).map _

theorem ActiveCall.phase_put_self (c : ActiveCall) {k : Nat} (p : Phase) (h : k ∈ c.left) :
    (c.put k p).phase k = some p := by
  obtain ⟨req, work⟩ := c
  simp only [ActiveCall.phase, ActiveCall.left, ActiveCall.put] at *
  induction work with
  | nil => simp at h
  | cons e w ih =>
    obtain ⟨i, q⟩ := e
    by_cases hk : i = k
    · simp [hk]
    · have hw : k ∈ w.map Prod.fst := by simpa [Ne.symm hk] using h
      simp [List.lookup_cons, hk, beq_eq_false_iff_ne.2 (Ne.symm hk), ih hw]

theorem ActiveCall.phase_put_ne (c : ActiveCall) {k j : Nat} (p : Phase) (h : j ≠ k) :
    (c.put k p).phase j = c.phase j := by
  obtain ⟨req, work⟩ := c
  simp only [ActiveCall.phase, ActiveCall.put]
  induction work with
  | nil => rfl
  | cons e w ih =>
    obtain ⟨i, q⟩ := e
    by_cases hk : i = k
    · simp [List.lookup_cons, hk, beq_eq_false_iff_ne.2 h, ih]
    · simp [List.lookup_cons, hk, ih]

theorem ActiveCall.phase_done_self (c : ActiveCall) (k : Nat) : (c.done k).phase k = none := by
  have := (c.done k).phase_isSome k
  simpa using this

theorem ActiveCall.phase_done_ne (c : ActiveCall) {k j : Nat} (h : j ≠ k) : (c.done k).phase j = c.phase j := by
  obtain ⟨req, work⟩ := c
  simp only [ActiveCall.phase, ActiveCall.done]
  induction work with
  | nil => rfl
  | cons e w ih =>
    obtain ⟨i, q⟩ := e
    by_cases hk : i = k
    · simp [List.lookup_cons, hk, beq_eq_false_iff_ne.2 h, ih]
    · simp [List.lookup_cons, hk, ih]

/-- The entries after stride `k` has got so far. -/
theorem ActiveCall.mem_put {c : ActiveCall} {k : Nat} {p : Phase} {e : Nat × Phase} (h : e ∈ (c.put k p).work) :
    e = (k, p) ∨ e ∈ c.work := by
  simp only [ActiveCall.put, List.mem_map] at h
  obtain ⟨e', h', rfl⟩ := h
  split
  · exact .inl rfl
  · exact .inr h'

theorem ActiveCall.mem_done {c : ActiveCall} {k : Nat} {e : Nat × Phase} (h : e ∈ (c.done k).work) : e ∈ c.work :=
  (List.mem_filter.1 h).1

theorem ActiveCall.busy_eq_false {c : ActiveCall} : c.busy = false ↔ ∀ e ∈ c.work, e.2.isShown = false := by
  simp [ActiveCall.busy]

theorem ActiveCall.busy_put {c : ActiveCall} (k : Nat) {p : Phase} (h : c.busy = false) (hp : p.isShown = false) :
    (c.put k p).busy = false :=
  busy_eq_false.2 fun _ he => by
    rcases mem_put he with rfl | he
    · exact hp
    · exact busy_eq_false.1 h _ he

theorem ActiveCall.busy_done {c : ActiveCall} (k : Nat) (h : c.busy = false) : (c.done k).busy = false :=
  busy_eq_false.2 fun _ he => busy_eq_false.1 h _ (mem_done he)

/-- A sound call stays sound when a stride gets any farther, provided it comes on the block only when no other is there. -/
theorem ActiveCall.Sound.put {c : ActiveCall} (h : c.Sound) (k : Nat) {p : Phase}
    (hp : p.isShown = true → c.busy = false) : (c.put k p).Sound := by
  obtain ⟨h1, h2, h3, h4⟩ := h
  refine ⟨h1, by simpa using h2, by simpa using h3, ?_⟩
  have h2' : c.work.Pairwise fun x y => x.1 ≠ y.1 := List.pairwise_map.1 h2
  simp only [ActiveCall.put, List.pairwise_map]
  refine (List.Pairwise.and_mem.1 (h4.and h2')).imp ?_
  rintro x y ⟨hx, hy, hxy, hne⟩ ⟨gx, gy⟩
  split_ifs at gx gy with e1 e2 e2
  · exact hne (e1.trans e2.symm)
  · rw [busy_eq_false.1 (hp gx) y hy] at gy; cases gy
  · rw [busy_eq_false.1 (hp gy) x hx] at gx; cases gx
  · exact hxy ⟨gx, gy⟩

theorem ActiveCall.Sound.done {c : ActiveCall} (h : c.Sound) (k : Nat) : (c.done k).Sound := by
  obtain ⟨h1, h2, h3, h4⟩ := h
  exact ⟨h1, by simpa using h2.filter _, fun j hj => h3 j (by simp at hj; exact hj.1), h4.filter _⟩

theorem ActiveCall.Sound.pick {c : ActiveCall} (h : c.Sound) (k : Nat) : (c.pick k).Sound := by
  obtain ⟨h1, h2, h3, h4⟩ := h
  exact ⟨h1, (c.pick_left k).nodup_iff.2 h2, fun j hj => h3 j ((c.pick_left k).mem_iff.1 hj),
    ((c.pick_perm k).pairwise_iff fun hxy hyx => hxy ⟨hyx.2, hyx.1⟩).2 h4⟩

/-- When the stride on the block leaves it, none is on it. -/
theorem ActiveCall.Sound.busy_put {c : ActiveCall} (h : c.Sound) {k : Nat} {o : Bundle} {p : Phase}
    (hk : c.phase k = some (.shown o)) (hp : p.isShown = false) : (c.put k p).busy = false := by
  refine busy_eq_false.2 fun e he => ?_
  simp only [ActiveCall.put, List.mem_map] at he
  obtain ⟨x, hx, rfl⟩ := he
  split
  · exact hp
  · next hne =>
    have hsym : Std.Symm fun x y : Nat × Phase => ¬ (x.2.isShown = true ∧ y.2.isShown = true) :=
      ⟨fun _ _ hxy hyx => hxy ⟨hyx.2, hyx.1⟩⟩
    have := h.2.2.2.forall hx (mem_of_phase hk) (by rintro rfl; exact hne rfl)
    exact Bool.eq_false_iff.2 fun hs => this ⟨hs, rfl⟩

/-- A call that has just begun is sound, has nothing on the block and all its strides to do. -/
theorem HostCall.begun_left (c : HostCall) : c.begun.left = List.range (strideCount c) := by
  simp only [ActiveCall.left, HostCall.begun, List.map_map]
  exact List.map_id' _

theorem HostCall.begun_phase {c : HostCall} {e : Nat × Phase} (h : e ∈ c.begun.work) : e.2 = .unread := by
  simp only [HostCall.begun, List.mem_map] at h
  obtain ⟨k, -, rfl⟩ := h
  rfl

theorem HostCall.begun_sound {c : HostCall} (h : c.precheck = none) : c.begun.Sound ∧ c.begun.busy = false := by
  have hs : ∀ e ∈ c.begun.work, e.2.isShown = false := fun e he => by rw [HostCall.begun_phase he]; rfl
  refine ⟨⟨h, ?_, ?_, ?_⟩, ActiveCall.busy_eq_false.2 hs⟩
  · rw [HostCall.begun_left]; exact List.nodup_range
  · rw [HostCall.begun_left]; exact fun k hk => List.mem_range.1 hk
  · refine (List.Pairwise.and_mem.1 (List.pairwise_of_forall (R := fun _ _ => True) fun _ _ => trivial)).imp ?_
    rintro x y ⟨hx, -, -⟩ ⟨gx, -⟩
    rw [hs x hx] at gx
    cases gx

/-- The stride a call moves next, when no event says otherwise, is one of those to do; there is none only when none is
left. -/
theorem ActiveCall.next_eq_some {c : ActiveCall} {k : Nat} (h : c.next = some k) : k ∈ c.left := by
  unfold ActiveCall.next at h
  split at h
  · next e he => cases h; exact List.mem_map_of_mem (List.mem_of_find?_eq_some he)
  · obtain ⟨e, he, rfl⟩ := Option.map_eq_some_iff.1 h
    exact List.mem_map_of_mem (List.mem_of_mem_head? he)

theorem ActiveCall.next_eq_none {c : ActiveCall} : c.next = none ↔ c.work = [] := by
  unfold ActiveCall.next
  split
  · next e he => simpa using List.ne_nil_of_mem (List.mem_of_find?_eq_some he)
  · simp

/-- With nothing on the block the next stride is the first to do. -/
theorem ActiveCall.next_of_idle {c : ActiveCall} (h : c.busy = false) : c.next = c.work.head?.map Prod.fst := by
  unfold ActiveCall.next
  rw [List.find?_eq_none.2 fun e he => by simpa using ActiveCall.busy_eq_false.1 h e he]

/-- The stride picked is the next one, with nothing on the block (R106). -/
theorem ActiveCall.pick_next {c : ActiveCall} {k : Nat} (h : c.busy = false) (hk : k ∈ c.left) :
    (c.pick k).next = some k := by
  have hb : (c.pick k).busy = false :=
    busy_eq_false.2 fun e he => busy_eq_false.1 h e ((c.pick_perm k).mem_iff.1 he)
  rw [next_of_idle hb]
  obtain ⟨e, he, rfl⟩ := List.mem_map.1 hk
  have hm : e ∈ c.work.filter fun x => x.1 == e.1 := by simp [he]
  obtain ⟨x, l, hx⟩ := List.exists_cons_of_ne_nil (List.ne_nil_of_mem hm)
  have hx1 : x ∈ c.work.filter fun x => x.1 == e.1 := by simp [hx]
  have : x.1 = e.1 := by simpa using (List.mem_filter.1 hx1).2
  simp [ActiveCall.pick, hx, this]

/-- Two ranges overlap in a byte that both cover. -/
theorem HostCall.overlaps_eq_false {c d : HostCall} :
    c.overlaps d = false ↔ ∀ a, c.covers a = true → d.covers a = false := by
  simp only [HostCall.overlaps, HostCall.covers, decide_eq_false_iff_not, decide_eq_true_eq]
  constructor
  · intro h a h1 h2; omega
  · intro h h1
    exact h (max c.base d.base) (by omega) (by omega)

theorem HostCall.overlaps_comm (c d : HostCall) : c.overlaps d = d.overlaps c := by
  simp only [HostCall.overlaps]; congr 1; rw [max_comm, min_comm]

/-- A stride's four bytes lie in its call's range. -/
theorem HostCall.covers_stride {c : HostCall} {k a : Nat} (hk : k < strideCount c) (h1 : strideAddr c k ≤ a)
    (h2 : a < strideAddr c k + 4) : c.covers a = true := by
  simp only [strideCount, strideAddr, HostCall.covers, decide_eq_true_eq] at *
  omega

end Sys2Proof.Machine
end

