-- ==== Sys2Proof/Laws/Datapath.lean ====
section
/-! SUPPORT. The datapath bit by bit. -/

namespace Sys2Proof.Machine

/-- Each bit of a contribution term: the channel's bit `k - s`, within the word (R65). -/
theorem getLsbD_contribution (c s : Byte) (k : Nat) :
    (contribution c s).getLsbD k = (decide (k < 32) && (decide (s.toNat ≤ k) && c.getLsbD (k - s.toNat))) := by
  simp only [contribution, exactShift, ← Nat.shiftLeft_eq, BitVec.getLsbD_ofNat, Nat.testBit_shiftLeft, ge_iff_le]
  rfl

/-- Each bit of the packed word: the OR of the four terms' bits (R68). -/
theorem getLsbD_packWord (o : Bundle) (k : Nat) :
    (packWord o).getLsbD k =
      ((contribution o.a o.sa).getLsbD k || (contribution o.r o.sr).getLsbD k ||
        (contribution o.g o.sg).getLsbD k || (contribution o.b o.sb).getLsbD k) := by
  simp only [packWord, BitVec.getLsbD_or]

end Sys2Proof.Machine
end

