-- ==== Sys2Proof/Laws/Memory.lean ====
section
/-! SUPPORT. The laws of host memory: what a read gives after a write, that every operation keeps the canonical form, and
that canonical memories with equal reads are equal. -/

namespace Sys2Proof.Machine

@[simp] theorem Memory.read_nil (a : Nat) : Memory.read [] a = Memory.unlisted := rfl

theorem Memory.read_cons (c : Host.Cell) (m : Memory) (a : Nat) :
    Memory.read (c :: m) a = if c.1 = a then c.2 else Memory.read m a := rfl

/-- An address with no entry reads as unlisted. -/
theorem Memory.read_of_forall_ne {m : Memory} {a : Nat} (h : ∀ c ∈ m, c.1 ≠ a) :
    Memory.read m a = Memory.unlisted := by
  induction m with
  | nil => rfl
  | cons c m ih =>
    rw [Memory.read_cons, if_neg (h c (by simp)), ih fun x hx => h x (by simp [hx])]

theorem Memory.mem_erase {m : Memory} {a : Nat} {c : Host.Cell} :
    c ∈ Memory.erase m a ↔ c ∈ m ∧ c.1 ≠ a := by
  simp [Memory.erase]

theorem Memory.read_erase (m : Memory) (a a' : Nat) :
    Memory.read (Memory.erase m a) a' = if a = a' then Memory.unlisted else Memory.read m a' := by
  split
  · next h => exact Memory.read_of_forall_ne fun c hc => h ▸ (Memory.mem_erase.1 hc).2
  · next h =>
    induction m with
    | nil => rfl
    | cons c m ih =>
      by_cases hc : c.1 = a
      · rw [show Memory.erase (c :: m) a = Memory.erase m a by simp [Memory.erase, hc], ih, Memory.read_cons,
          if_neg (hc ▸ h)]
      · rw [show Memory.erase (c :: m) a = c :: Memory.erase m a by simp [Memory.erase, hc], Memory.read_cons,
          Memory.read_cons, ih]

theorem Memory.mem_insert {m : Memory} {a : Nat} {v : Byte} {c : Host.Cell} :
    c ∈ Memory.insert m a v ↔ c = (a, v) ∨ c ∈ m := by
  induction m with
  | nil => simp [Memory.insert]
  | cons d m ih =>
    simp only [Memory.insert]
    split
    · simp
    · simp only [List.mem_cons, ih]; tauto

theorem Memory.read_insert {m : Memory} {a : Nat} (v : Byte) (h : ∀ c ∈ m, c.1 ≠ a) (a' : Nat) :
    Memory.read (Memory.insert m a v) a' = if a = a' then v else Memory.read m a' := by
  induction m with
  | nil => rfl
  | cons c m ih =>
    have hc := h c (by simp)
    simp only [Memory.insert]
    split
    · rw [Memory.read_cons]
    · rw [Memory.read_cons, ih fun x hx => h x (by simp [hx]), Memory.read_cons]
      split_ifs <;> simp_all

/-- A read after a one-byte write: the byte written at its address, the old byte anywhere else (R44). -/
theorem Memory.read_write (m : Memory) (a : Nat) (v : Byte) (a' : Nat) :
    Memory.read (Memory.write m a v) a' = if a = a' then v else Memory.read m a' := by
  unfold Memory.write
  split
  · next h => rw [Memory.read_erase, h]
  · rw [Memory.read_insert v (fun c hc => (Memory.mem_erase.1 hc).2), Memory.read_erase]
    split_ifs <;> rfl

/-- A read after bytes were written one after the other. -/
theorem Memory.read_writeBytes (m : Memory) (a : Nat) (vs : List Byte) (a' : Nat) :
    Memory.read (Memory.writeBytes m a vs) a' =
      if h : a ≤ a' ∧ a' < a + vs.length then vs[a' - a]'(by omega) else Memory.read m a' := by
  induction vs generalizing m a with
  | nil => simp only [Memory.writeBytes, List.length_nil]; rw [dif_neg (by omega)]
  | cons v vs ih =>
    rw [Memory.writeBytes, ih, Memory.read_write]
    by_cases h1 : a + 1 ≤ a' ∧ a' < a + 1 + vs.length
    · rw [dif_pos h1, dif_pos (by simp only [List.length_cons]; omega)]
      simp only [show a' - a = (a' - (a + 1)) + 1 by omega, List.getElem_cons_succ]
    · rw [dif_neg h1]
      by_cases h2 : a = a'
      · subst h2; simp
      · rw [if_neg h2, dif_neg (by simp only [List.length_cons]; omega)]

@[simp] theorem wordBytes_length (order : ByteOrder) (w : Word) : (wordBytes order w).length = 4 := by
  cases order <;> rfl

/-- A read after a word was written in the host's byte order (R37). -/
theorem Memory.read_writeWord (order : ByteOrder) (m : Memory) (a : Nat) (w : Word) (a' : Nat) :
    Memory.read (Memory.writeWord order m a w) a' =
      if h : a ≤ a' ∧ a' < a + 4 then (wordBytes order w)[a' - a]'(by simp; omega) else Memory.read m a' := by
  unfold Memory.writeWord
  rw [Memory.read_writeBytes]
  simp only [wordBytes_length]

/-- Outside its four bytes a word write changes nothing. -/
theorem Memory.read_writeWord_outside (order : ByteOrder) (m : Memory) (a : Nat) (w : Word) {a' : Nat}
    (h : a' < a ∨ a + 4 ≤ a') : Memory.read (Memory.writeWord order m a w) a' = Memory.read m a' := by
  rw [Memory.read_writeWord, dif_neg (by omega)]

theorem Memory.wf_nil : Memory.wf [] := by simp [Memory.wf]

theorem Memory.wf_erase {m : Memory} (h : Memory.wf m) (a : Nat) : Memory.wf (Memory.erase m a) :=
  ⟨h.1.filter _, fun c hc => h.2 c (Memory.mem_erase.1 hc).1⟩

theorem Memory.wf_insert {m : Memory} (h : Memory.wf m) {a : Nat} (ha : ∀ c ∈ m, c.1 ≠ a) {v : Byte}
    (hv : v ≠ Memory.unlisted) : Memory.wf (Memory.insert m a v) := by
  refine ⟨?_, fun c hc => ?_⟩
  · obtain ⟨hp, -⟩ := h
    induction m with
    | nil => simp [Memory.insert]
    | cons d m ih =>
      have hd := ha d (by simp)
      rw [List.pairwise_cons] at hp
      simp only [Memory.insert]
      split
      · next hlt =>
        refine List.pairwise_cons.2 ⟨fun c hc => ?_, List.pairwise_cons.2 hp⟩
        rcases List.mem_cons.1 hc with rfl | hc
        · exact hlt
        · exact hlt.trans (hp.1 c hc)
      · next hnl =>
        refine List.pairwise_cons.2 ⟨fun c hc => ?_, ih (fun x hx => ha x (by simp [hx])) hp.2⟩
        rcases Memory.mem_insert.1 hc with rfl | hc
        · show d.1 < a; omega
        · exact hp.1 c hc
  · rcases Memory.mem_insert.1 hc with rfl | hc
    · exact hv
    · exact h.2 c hc

/-- A write keeps the canonical form. -/
theorem Memory.wf_write {m : Memory} (h : Memory.wf m) (a : Nat) (v : Byte) : Memory.wf (Memory.write m a v) := by
  unfold Memory.write
  split
  · exact Memory.wf_erase h a
  · next hv => exact Memory.wf_insert (Memory.wf_erase h a) (fun c hc => (Memory.mem_erase.1 hc).2) hv

theorem Memory.wf_writeBytes {m : Memory} (h : Memory.wf m) (a : Nat) (vs : List Byte) :
    Memory.wf (Memory.writeBytes m a vs) := by
  induction vs generalizing m a with
  | nil => exact h
  | cons v vs ih => exact ih (Memory.wf_write h a v) (a + 1)

theorem Memory.wf_writeWord {m : Memory} (h : Memory.wf m) (order : ByteOrder) (a : Nat) (w : Word) :
    Memory.wf (Memory.writeWord order m a w) := Memory.wf_writeBytes h a _

/-- Canonical memories that read the same at every address are the same list. -/
theorem Memory.ext_of_wf {m m' : Memory} (h : Memory.wf m) (h' : Memory.wf m')
    (hr : ∀ a, Memory.read m a = Memory.read m' a) : m = m' := by
  have cell : ∀ {x : Memory}, Memory.wf x → ∀ c : Host.Cell, c ∈ x ↔ Memory.read x c.1 = c.2 ∧ c.2 ≠ Memory.unlisted := by
    intro x hx c
    obtain ⟨hp, hn⟩ := hx
    induction x with
    | nil => simp; exact fun e => e.symm
    | cons d x ih =>
      rw [List.pairwise_cons] at hp
      have ih := ih hp.2 (fun y hy => hn y (by simp [hy]))
      rw [Memory.read_cons]
      split
      · next hd =>
        constructor
        · intro hc
          rcases List.mem_cons.1 hc with rfl | hc
          · exact ⟨rfl, hn c (by simp)⟩
          · have := hp.1 c hc; omega
        · rintro ⟨h2, -⟩
          exact List.mem_cons.2 (.inl (Prod.ext hd.symm h2.symm))
      · next hd =>
        rw [List.mem_cons, ih]
        exact ⟨fun hc => hc.resolve_left fun e => hd (by rw [e]), .inr⟩
  have irrefl : Std.Irrefl (fun x y : Host.Cell => x.1 < y.1) := ⟨fun x => Nat.lt_irrefl x.1⟩
  have antisymm : Std.Antisymm (fun x y : Host.Cell => x.1 < y.1) := ⟨fun x y h1 h2 => by omega⟩
  exact h.1.eq_of_mem_iff h'.1 fun c => by rw [cell h, cell h', hr]

end Sys2Proof.Machine
end

