-- ==== Sys2Proof/Laws/State.lean ====
section
/-! SUPPORT. What each update of the state does to each field: one lemma per field per update. -/

namespace Sys2Proof.Machine

@[simp] theorem State.setPorts_cfg (s : State) (p : Ports) : (s.setPorts p).cfg = s.cfg := rfl
@[simp] theorem State.setPorts_ports (s : State) (p : Ports) : (s.setPorts p).ports = p := rfl
@[simp] theorem State.setPorts_pixQ (s : State) (p : Ports) : (s.setPorts p).pixQ = s.pixQ := rfl
@[simp] theorem State.setPorts_vldQ (s : State) (p : Ports) : (s.setPorts p).vldQ = s.vldQ := rfl
@[simp] theorem State.setPorts_resetSeen (s : State) (p : Ports) : (s.setPorts p).resetSeen = s.resetSeen := rfl
@[simp] theorem State.setPorts_mem (s : State) (p : Ports) : (s.setPorts p).mem = s.mem := rfl
@[simp] theorem State.setPorts_call (s : State) (p : Ports) : (s.setPorts p).call = s.call := rfl
@[simp] theorem State.setPorts_others (s : State) (p : Ports) : (s.setPorts p).others = s.others := rfl
@[simp] theorem State.setPorts_callOf (s : State) (p : Ports) (who : Caller) : (s.setPorts p).callOf who = s.callOf who := rfl
@[simp] theorem State.setPorts_running (s : State) (p : Ports) : (s.setPorts p).running = s.running := rfl
@[simp] theorem State.setPorts_consumed (s : State) (p : Ports) : (s.setPorts p).consumed = s.consumed := rfl
@[simp] theorem State.setPorts_agenda (s : State) (p : Ports) : (s.setPorts p).agenda = s.agenda := rfl
@[simp] theorem State.setPorts_freeCount (s : State) (p : Ports) : (s.setPorts p).freeCount = s.freeCount := rfl

@[simp] theorem State.setRegs_cfg (s : State) (w : Word) (v : Bool) : (s.setRegs w v).cfg = s.cfg := rfl
@[simp] theorem State.setRegs_ports (s : State) (w : Word) (v : Bool) : (s.setRegs w v).ports = s.ports := rfl
@[simp] theorem State.setRegs_pixQ (s : State) (w : Word) (v : Bool) : (s.setRegs w v).pixQ = w := rfl
@[simp] theorem State.setRegs_vldQ (s : State) (w : Word) (v : Bool) : (s.setRegs w v).vldQ = v := rfl
@[simp] theorem State.setRegs_resetSeen (s : State) (w : Word) (v : Bool) : (s.setRegs w v).resetSeen = s.resetSeen := rfl
@[simp] theorem State.setRegs_mem (s : State) (w : Word) (v : Bool) : (s.setRegs w v).mem = s.mem := rfl
@[simp] theorem State.setRegs_call (s : State) (w : Word) (v : Bool) : (s.setRegs w v).call = s.call := rfl
@[simp] theorem State.setRegs_others (s : State) (w : Word) (v : Bool) : (s.setRegs w v).others = s.others := rfl
@[simp] theorem State.setRegs_callOf (s : State) (w : Word) (v : Bool) (who : Caller) : (s.setRegs w v).callOf who = s.callOf who := rfl
@[simp] theorem State.setRegs_running (s : State) (w : Word) (v : Bool) : (s.setRegs w v).running = s.running := rfl
@[simp] theorem State.setRegs_consumed (s : State) (w : Word) (v : Bool) : (s.setRegs w v).consumed = s.consumed := rfl
@[simp] theorem State.setRegs_agenda (s : State) (w : Word) (v : Bool) : (s.setRegs w v).agenda = s.agenda := rfl
@[simp] theorem State.setRegs_freeCount (s : State) (w : Word) (v : Bool) : (s.setRegs w v).freeCount = s.freeCount := rfl

@[simp] theorem State.markReset_cfg (s : State) : (s.markReset).cfg = s.cfg := rfl
@[simp] theorem State.markReset_ports (s : State) : (s.markReset).ports = s.ports := rfl
@[simp] theorem State.markReset_pixQ (s : State) : (s.markReset).pixQ = s.pixQ := rfl
@[simp] theorem State.markReset_vldQ (s : State) : (s.markReset).vldQ = s.vldQ := rfl
@[simp] theorem State.markReset_resetSeen (s : State) : (s.markReset).resetSeen = true := rfl
@[simp] theorem State.markReset_mem (s : State) : (s.markReset).mem = s.mem := rfl
@[simp] theorem State.markReset_call (s : State) : (s.markReset).call = s.call := rfl
@[simp] theorem State.markReset_others (s : State) : (s.markReset).others = s.others := rfl
@[simp] theorem State.markReset_callOf (s : State) (who : Caller) : (s.markReset).callOf who = s.callOf who := rfl
@[simp] theorem State.markReset_running (s : State) : (s.markReset).running = s.running := rfl
@[simp] theorem State.markReset_consumed (s : State) : (s.markReset).consumed = s.consumed := rfl
@[simp] theorem State.markReset_agenda (s : State) : (s.markReset).agenda = s.agenda := rfl
@[simp] theorem State.markReset_freeCount (s : State) : (s.markReset).freeCount = s.freeCount := rfl

@[simp] theorem State.setMem_cfg (s : State) (m : Memory) : (s.setMem m).cfg = s.cfg := rfl
@[simp] theorem State.setMem_ports (s : State) (m : Memory) : (s.setMem m).ports = s.ports := rfl
@[simp] theorem State.setMem_pixQ (s : State) (m : Memory) : (s.setMem m).pixQ = s.pixQ := rfl
@[simp] theorem State.setMem_vldQ (s : State) (m : Memory) : (s.setMem m).vldQ = s.vldQ := rfl
@[simp] theorem State.setMem_resetSeen (s : State) (m : Memory) : (s.setMem m).resetSeen = s.resetSeen := rfl
@[simp] theorem State.setMem_mem (s : State) (m : Memory) : (s.setMem m).mem = m := rfl
@[simp] theorem State.setMem_call (s : State) (m : Memory) : (s.setMem m).call = s.call := rfl
@[simp] theorem State.setMem_others (s : State) (m : Memory) : (s.setMem m).others = s.others := rfl
@[simp] theorem State.setMem_callOf (s : State) (m : Memory) (who : Caller) : (s.setMem m).callOf who = s.callOf who := rfl
@[simp] theorem State.setMem_running (s : State) (m : Memory) : (s.setMem m).running = s.running := rfl
@[simp] theorem State.setMem_consumed (s : State) (m : Memory) : (s.setMem m).consumed = s.consumed := rfl
@[simp] theorem State.setMem_agenda (s : State) (m : Memory) : (s.setMem m).agenda = s.agenda := rfl
@[simp] theorem State.setMem_freeCount (s : State) (m : Memory) : (s.setMem m).freeCount = s.freeCount := rfl

@[simp] theorem State.setAgenda_cfg (s : State) (es : List Event) : (s.setAgenda es).cfg = s.cfg := rfl
@[simp] theorem State.setAgenda_ports (s : State) (es : List Event) : (s.setAgenda es).ports = s.ports := rfl
@[simp] theorem State.setAgenda_pixQ (s : State) (es : List Event) : (s.setAgenda es).pixQ = s.pixQ := rfl
@[simp] theorem State.setAgenda_vldQ (s : State) (es : List Event) : (s.setAgenda es).vldQ = s.vldQ := rfl
@[simp] theorem State.setAgenda_resetSeen (s : State) (es : List Event) : (s.setAgenda es).resetSeen = s.resetSeen := rfl
@[simp] theorem State.setAgenda_mem (s : State) (es : List Event) : (s.setAgenda es).mem = s.mem := rfl
@[simp] theorem State.setAgenda_call (s : State) (es : List Event) : (s.setAgenda es).call = s.call := rfl
@[simp] theorem State.setAgenda_others (s : State) (es : List Event) : (s.setAgenda es).others = s.others := rfl
@[simp] theorem State.setAgenda_callOf (s : State) (es : List Event) (who : Caller) : (s.setAgenda es).callOf who = s.callOf who := rfl
@[simp] theorem State.setAgenda_running (s : State) (es : List Event) : (s.setAgenda es).running = s.running := rfl
@[simp] theorem State.setAgenda_consumed (s : State) (es : List Event) : (s.setAgenda es).consumed = s.consumed := rfl
@[simp] theorem State.setAgenda_agenda (s : State) (es : List Event) : (s.setAgenda es).agenda = es := rfl
@[simp] theorem State.setAgenda_freeCount (s : State) (es : List Event) : (s.setAgenda es).freeCount = s.freeCount := rfl

@[simp] theorem State.consume_cfg (s : State) (w : Word) : (s.consume w).cfg = s.cfg := rfl
@[simp] theorem State.consume_ports (s : State) (w : Word) : (s.consume w).ports = s.ports := rfl
@[simp] theorem State.consume_pixQ (s : State) (w : Word) : (s.consume w).pixQ = s.pixQ := rfl
@[simp] theorem State.consume_vldQ (s : State) (w : Word) : (s.consume w).vldQ = s.vldQ := rfl
@[simp] theorem State.consume_resetSeen (s : State) (w : Word) : (s.consume w).resetSeen = s.resetSeen := rfl
@[simp] theorem State.consume_mem (s : State) (w : Word) : (s.consume w).mem = s.mem := rfl
@[simp] theorem State.consume_call (s : State) (w : Word) : (s.consume w).call = s.call := rfl
@[simp] theorem State.consume_others (s : State) (w : Word) : (s.consume w).others = s.others := rfl
@[simp] theorem State.consume_callOf (s : State) (w : Word) (who : Caller) : (s.consume w).callOf who = s.callOf who := rfl
@[simp] theorem State.consume_running (s : State) (w : Word) : (s.consume w).running = s.running := rfl
@[simp] theorem State.consume_consumed (s : State) (w : Word) : (s.consume w).consumed = s.consumed ++ [w] := rfl
@[simp] theorem State.consume_agenda (s : State) (w : Word) : (s.consume w).agenda = s.agenda := rfl
@[simp] theorem State.consume_freeCount (s : State) (w : Word) : (s.consume w).freeCount = s.freeCount := rfl

@[simp] theorem State.useFree_cfg (s : State) (n : Nat) : (s.useFree n).cfg = s.cfg := rfl
@[simp] theorem State.useFree_ports (s : State) (n : Nat) : (s.useFree n).ports = s.ports := rfl
@[simp] theorem State.useFree_pixQ (s : State) (n : Nat) : (s.useFree n).pixQ = s.pixQ := rfl
@[simp] theorem State.useFree_vldQ (s : State) (n : Nat) : (s.useFree n).vldQ = s.vldQ := rfl
@[simp] theorem State.useFree_resetSeen (s : State) (n : Nat) : (s.useFree n).resetSeen = s.resetSeen := rfl
@[simp] theorem State.useFree_mem (s : State) (n : Nat) : (s.useFree n).mem = s.mem := rfl
@[simp] theorem State.useFree_call (s : State) (n : Nat) : (s.useFree n).call = s.call := rfl
@[simp] theorem State.useFree_others (s : State) (n : Nat) : (s.useFree n).others = s.others := rfl
@[simp] theorem State.useFree_callOf (s : State) (n : Nat) (who : Caller) : (s.useFree n).callOf who = s.callOf who := rfl
@[simp] theorem State.useFree_running (s : State) (n : Nat) : (s.useFree n).running = s.running := rfl
@[simp] theorem State.useFree_consumed (s : State) (n : Nat) : (s.useFree n).consumed = s.consumed := rfl
@[simp] theorem State.useFree_agenda (s : State) (n : Nat) : (s.useFree n).agenda = s.agenda := rfl
@[simp] theorem State.useFree_freeCount (s : State) (n : Nat) : (s.useFree n).freeCount = s.freeCount + n := rfl

@[simp] theorem State.setCall_cfg (s : State) (who : Caller) (c : Option ActiveCall) :
    (s.setCall who c).cfg = s.cfg := by cases who <;> rfl
@[simp] theorem State.setCall_ports (s : State) (who : Caller) (c : Option ActiveCall) :
    (s.setCall who c).ports = s.ports := by cases who <;> rfl
@[simp] theorem State.setCall_pixQ (s : State) (who : Caller) (c : Option ActiveCall) :
    (s.setCall who c).pixQ = s.pixQ := by cases who <;> rfl
@[simp] theorem State.setCall_vldQ (s : State) (who : Caller) (c : Option ActiveCall) :
    (s.setCall who c).vldQ = s.vldQ := by cases who <;> rfl
@[simp] theorem State.setCall_resetSeen (s : State) (who : Caller) (c : Option ActiveCall) :
    (s.setCall who c).resetSeen = s.resetSeen := by cases who <;> rfl
@[simp] theorem State.setCall_mem (s : State) (who : Caller) (c : Option ActiveCall) :
    (s.setCall who c).mem = s.mem := by cases who <;> rfl
@[simp] theorem State.setCall_consumed (s : State) (who : Caller) (c : Option ActiveCall) :
    (s.setCall who c).consumed = s.consumed := by cases who <;> rfl
@[simp] theorem State.setCall_agenda (s : State) (who : Caller) (c : Option ActiveCall) :
    (s.setCall who c).agenda = s.agenda := by cases who <;> rfl
@[simp] theorem State.setCall_freeCount (s : State) (who : Caller) (c : Option ActiveCall) :
    (s.setCall who c).freeCount = s.freeCount := by cases who <;> rfl
@[simp] theorem State.setCall_host_call (s : State) (c : Option ActiveCall) : (s.setCall .host c).call = c := rfl
@[simp] theorem State.setCall_host_others (s : State) (c : Option ActiveCall) : (s.setCall .host c).others = s.others := rfl
@[simp] theorem State.setCall_other_call (s : State) (n : Nat) (c : Option ActiveCall) :
    (s.setCall (.other n) c).call = s.call := rfl
@[simp] theorem State.setCall_other_others (s : State) (n : Nat) (c : Option ActiveCall) :
    (s.setCall (.other n) c).others = s.others.set n c := rfl
@[simp] theorem State.callOf_host (s : State) : s.callOf .host = s.call := rfl

@[simp] theorem State.addOther_cfg (s : State) (c : ActiveCall) : (s.addOther c).cfg = s.cfg := rfl
@[simp] theorem State.addOther_ports (s : State) (c : ActiveCall) : (s.addOther c).ports = s.ports := rfl
@[simp] theorem State.addOther_pixQ (s : State) (c : ActiveCall) : (s.addOther c).pixQ = s.pixQ := rfl
@[simp] theorem State.addOther_vldQ (s : State) (c : ActiveCall) : (s.addOther c).vldQ = s.vldQ := rfl
@[simp] theorem State.addOther_resetSeen (s : State) (c : ActiveCall) : (s.addOther c).resetSeen = s.resetSeen := rfl
@[simp] theorem State.addOther_mem (s : State) (c : ActiveCall) : (s.addOther c).mem = s.mem := rfl
@[simp] theorem State.addOther_call (s : State) (c : ActiveCall) : (s.addOther c).call = s.call := rfl
@[simp] theorem State.addOther_others (s : State) (c : ActiveCall) : (s.addOther c).others = s.others ++ [some c] := rfl
@[simp] theorem State.addOther_consumed (s : State) (c : ActiveCall) : (s.addOther c).consumed = s.consumed := rfl
@[simp] theorem State.addOther_agenda (s : State) (c : ActiveCall) : (s.addOther c).agenda = s.agenda := rfl
@[simp] theorem State.addOther_freeCount (s : State) (c : ActiveCall) : (s.addOther c).freeCount = s.freeCount := rfl

/-- A call in progress whose state changes is the only one that does. -/
theorem State.callOf_setCall (s : State) (who who' : Caller) (c : Option ActiveCall) (h : s.callOf who ≠ none) :
    (s.setCall who c).callOf who' = if who' = who then c else s.callOf who' := by
  rcases who with _ | n
  · cases who' <;> simp [State.callOf]
  · rcases who' with _ | m
    · simp [State.callOf]
    · have hn : n < s.others.length := by
        by_contra hn
        simp [State.callOf, List.getElem?_eq_none (not_lt.1 hn)] at h
      by_cases hm : n = m
      · subst hm; simp [State.callOf, hn]
      · simp [State.callOf, List.getElem?_set_ne hm, Ne.symm hm]

/-- Another agent's call that begins gets the next number, and no other call changes. -/
theorem State.callOf_addOther (s : State) (who : Caller) (c : ActiveCall) :
    (s.addOther c).callOf who = if who = .other s.others.length then some c else s.callOf who := by
  rcases who with _ | n
  · simp
  · by_cases hn : n < s.others.length
    · simp [State.callOf, List.getElem?_append_left hn, Nat.ne_of_lt hn]
    · by_cases he : n = s.others.length
      · subst he; simp [State.callOf]
      · have : s.others.length < n := by omega
        simp [State.callOf, he, List.getElem?_eq_none (by simp; omega : (s.others ++ [some c]).length ≤ n),
          List.getElem?_eq_none (by omega : s.others.length ≤ n)]

/-- The calls in progress are the callers' calls. -/
theorem State.mem_running (s : State) (d : HostCall) : d ∈ s.running ↔ ∃ who c, s.callOf who = some c ∧ c.req = d := by
  simp only [State.running, List.mem_map, List.mem_append, Option.mem_toList, List.mem_filterMap, id]
  constructor
  · rintro ⟨c, hc | ⟨o, ho, rfl⟩, rfl⟩
    · exact ⟨.host, c, hc, rfl⟩
    · obtain ⟨n, hn, he⟩ := List.getElem_of_mem ho
      exact ⟨.other n, c, by simp [State.callOf, hn, he], rfl⟩
  · rintro ⟨who | n, c, hc, rfl⟩
    · exact ⟨c, .inl hc, rfl⟩
    · refine ⟨c, .inr ⟨some c, ?_, rfl⟩, rfl⟩
      simp only [State.callOf, Option.join_eq_some_iff] at hc
      exact List.mem_of_getElem? hc

@[simp] theorem State.losePower_cfg (s : State) : s.losePower.cfg = s.cfg := by
  unfold State.losePower; split <;> rfl
@[simp] theorem State.losePower_ports (s : State) : s.losePower.ports = s.ports := by
  unfold State.losePower; split <;> rfl
@[simp] theorem State.losePower_mem (s : State) : s.losePower.mem = s.mem := by
  unfold State.losePower; split <;> rfl
@[simp] theorem State.losePower_call (s : State) : s.losePower.call = s.call := by
  unfold State.losePower; split <;> rfl
@[simp] theorem State.losePower_others (s : State) : s.losePower.others = s.others := by
  unfold State.losePower; split <;> rfl
@[simp] theorem State.losePower_callOf (s : State) (who : Caller) : s.losePower.callOf who = s.callOf who := by
  unfold State.losePower; split <;> rfl
@[simp] theorem State.losePower_consumed (s : State) : s.losePower.consumed = s.consumed := by
  unfold State.losePower; split <;> rfl
@[simp] theorem State.losePower_agenda (s : State) : s.losePower.agenda = s.agenda := by
  unfold State.losePower; split <;> rfl

/-- A loss of power leaves the combinational variant as it is: it has no state (R29). -/
theorem State.losePower_combinational (s : State) (h : s.cfg.registered = .combinational) : s.losePower = s := by
  simp [State.losePower, h]

/-- After a loss of power the single-cycle variant's registers may not be read (R124, R28). -/
theorem State.losePower_resetSeen (s : State) (h : s.cfg.registered = .singleCycle) : s.losePower.resetSeen = false := by
  simp [State.losePower, h]

end Sys2Proof.Machine
end

