-- ==== Sys2Proof/Laws/Ops.lean ====
section
/-! SUPPORT. One lemma per shared operation that says everything it can do: decoding, the operations, the outputs, the
moves of a host call. -/

namespace Sys2Proof.Machine

@[simp] theorem ctlByte_inValid (r v : Bool) : (ctlByte r v)[0] = v := by cases r <;> cases v <;> rfl

@[simp] theorem ctlByte_rst (r v : Bool) : (ctlByte r v)[1] = r := by cases r <;> cases v <;> rfl

/-- The block's frame always decodes, to the operation the table of R55 selects. -/
theorem decode_ports_frame (v : Variant) (p : Ports) : decode v (p.frame v) = .ok (selected v p) := by
  cases v <;> simp [Ports.frame, Bundle.bytes, decode, selected]

/-- The operation the inputs select is one the block's variant has. -/
theorem selected_variant (v : Variant) (p : Ports) : (selected v p).variant = v := by
  obtain ⟨d, i, r⟩ := p
  cases v <;> cases r <;> cases i <;> rfl

/-- One instant of the block is its selected operation; it never fails to decode. -/
theorem runPorts_eq (s : State) : runPorts s = exec (selected s.cfg.registered s.ports) s := by
  simp [runPorts, fetch, decode_ports_frame]

theorem onVariant_next {v : Variant} {s t u : State} (h : onVariant v s t = .next u) :
    s.cfg.registered = v ∧ u = t := by
  unfold onVariant at h
  split at h
  · next hv => cases h; exact ⟨hv, rfl⟩
  · cases h

/-- The state an operation leaves in the variant that has it. -/
def effect (i : Instr) (s : State) : State :=
  match i with
  | .pack o v  => s.setPorts ⟨o, v, s.ports.rst⟩
  | .capture o => s.setRegs (packWord o) true
  | .idle      => s.setRegs s.pixQ false
  | .reset _   => (s.setRegs 0 false).markReset

/-- What each operation leaves, in the variant that has it. -/
theorem exec_next {i : Instr} {s t : State} (h : exec i s = .next t) :
    s.cfg.registered = i.variant ∧ t = effect i s := by
  cases i <;> exact onVariant_next h

/-- In its own variant an operation always completes (R58, R77, R111). -/
theorem exec_completes {i : Instr} {s : State} (h : s.cfg.registered = i.variant) : ∃ t, exec i s = .next t := by
  cases i <;> exact ⟨_, if_pos h⟩

/-- Whatever is on the inputs, the block's instant completes. -/
theorem runPorts_completes (s : State) : ∃ t, runPorts s = .next t := by
  rw [runPorts_eq]
  exact exec_completes (selected_variant _ _).symm

/-- An operation touches ports and registers alone. -/
theorem exec_keeps {i : Instr} {s t : State} (h : exec i s = .next t) :
    t.cfg = s.cfg ∧ t.mem = s.mem ∧ t.call = s.call ∧ t.others = s.others ∧ t.consumed = s.consumed ∧
    t.agenda = s.agenda ∧ t.freeCount = s.freeCount := by
  obtain ⟨-, rfl⟩ := exec_next h
  cases i <;> simp [effect]

/-- What reading both outputs can give: a fault before the first RESET edge, or the two values. -/
theorem outputs_cases (s : State) :
    (s.outValid = .error .unresetRead ∧ s.pixOut = .error .unresetRead ∧
      s.cfg.registered = .singleCycle ∧ s.resetSeen = false) ∨
    (s.outValid = .ok s.vldQ ∧ s.pixOut = .ok s.pixQ ∧ s.cfg.registered = .singleCycle ∧ s.resetSeen = true) ∨
    (s.outValid = .ok s.ports.inValid ∧ s.pixOut = .ok (packWord s.ports.data) ∧
      s.cfg.registered = .combinational) := by
  unfold State.outValid State.pixOut
  cases hv : s.cfg.registered <;> cases hr : s.resetSeen <;> simp

/-- An operation changes no call. -/
theorem exec_callOf {i : Instr} {s t : State} (h : exec i s = .next t) (who : Caller) : t.callOf who = s.callOf who := by
  obtain ⟨-, -, h1, h2, -⟩ := exec_keeps h
  cases who <;> simp [State.callOf, h1, h2]

/-- Which calls may begin (R94, R46): those that pass conditions 1 to 4 and overlap no call in progress. -/
theorem turnsAway_eq_none {s : State} {c : HostCall} :
    s.turnsAway c = none ↔ c.precheck = none ∧ ∀ d ∈ s.running, c.overlaps d = false := by
  unfold State.turnsAway
  split
  · next f hf => simp [hf]
  · next hf => simp [hf]

theorem startCall_next {c : HostCall} {s t : State} (h : startCall c s = .next t) :
    s.turnsAway c = none ∧ t = s.setCall .host (some c.begun) := by
  unfold startCall at h
  split at h
  · cases h
  · next hp => cases h; exact ⟨hp, rfl⟩

theorem startOther_next {c : HostCall} {s t : State} (h : startOther c s = .next t) :
    s.turnsAway c = none ∧ t = s.addOther c.begun := by
  unfold startOther at h
  split at h
  · cases h
  · next hp => cases h; exact ⟨hp, rfl⟩

/-- A stride is presented by one operation of the block, the one its inputs select (R96); or the host waits for the word
of another. -/
theorem showStride_next {c : ActiveCall} {k : Nat} {o : Bundle} {s t : State} (h : showStride c k o s = .next t) :
    (c.busy = true ∧ t = s) ∨
    c.busy = false ∧ ∃ u, exec (selected s.cfg.registered ⟨o, true, false⟩) (s.setPorts ⟨o, true, false⟩) = .next u ∧
      t = u.setCall .host (some (c.put k (.shown o))) := by
  unfold showStride at h
  rw [runPorts_eq] at h
  split at h
  · next hb => cases h; exact .inl ⟨hb, rfl⟩
  · next hb =>
    split at h
    · next u hu => cases h; exact .inr ⟨by simpa using hb, u, hu, rfl⟩
    · cases h
    · cases h

/-- Looking for the word presented: lost, or taken. -/
theorem takeStride_next {c : ActiveCall} {k : Nat} {o : Bundle} {s t : State} (h : takeStride c k o s = .next t) :
    (s.outValid = .ok false ∧ t = s.setCall .host (some (c.put k (.read o)))) ∨
    ∃ w, s.outValid = .ok true ∧ s.pixOut = .ok w ∧
      t = (s.setPorts ⟨s.ports.data, false, s.ports.rst⟩).setCall .host (some (c.put k (.taken w))) := by
  unfold takeStride at h
  split at h
  · cases h
  · cases h
  · next hv _ => cases h; exact .inl ⟨hv, rfl⟩
  · next w hv hp => cases h; exact .inr ⟨w, hv, hp, rfl⟩

/-- Everything a move of stride `k` can be. -/
theorem moveStride_next {who : Caller} {c : ActiveCall} {k : Nat} {s t : State} (h : moveStride who c k s = .next t) :
    (c.phase k = none ∧ t = s) ∨
    (c.phase k = some .unread ∧ t = readStride who c k s) ∨
    (∃ o, (c.phase k = some (.read o) ∨ c.phase k = some (.shown o)) ∧ who ≠ .host ∧ t = packElsewhere who c k o s) ∨
    (∃ o, c.phase k = some (.read o) ∧ who = .host ∧ showStride c k o s = .next t) ∨
    (∃ o, c.phase k = some (.shown o) ∧ who = .host ∧ takeStride c k o s = .next t) ∨
    (∃ w, c.phase k = some (.taken w) ∧ t = writeStride who c k w s) := by
  unfold moveStride at h
  split at h <;> rename_i hp
  · cases h; simp [hp]
  · cases h; simp [hp]
  · simp [hp, h]
  · cases h; simp [hp]
  · simp [hp, h]
  · cases h; simp [hp]
  · cases h; simp [hp]

/-- A change of a call by its caller, `op` being the operation the block performs with it: the call returns, moves a
stride, has one packed by another block, or takes another order. -/
inductive CallStep (who : Caller) (c : ActiveCall) (op : Option Instr) (s t : State) : Prop where
  | returns (hw : c.work = []) (ho : op = none) (ht : t = s.setCall who none)
  | moves (k : Nat) (ho : op = if who = .host then strideOperation c k s else none) (ht : moveStride who c k s = .next t)
  | beside (k : Nat) (o : Bundle) (hw : who = .host) (hp : c.phase k = some (.read o)) (ho : op = none)
      (ht : t = packElsewhere who c k o s)
  | picks (k : Nat) (hw : who = .host) (ho : op = none) (ht : t = s.setCall who (some (c.pick k)))

theorem hostMove_next {c : ActiveCall} {s t : State} (h : hostMove c s = .next t) :
    (c.next = none ∧ t = s.setCall .host none) ∨ ∃ k, c.next = some k ∧ moveStride .host c k s = .next t := by
  unfold hostMove at h
  split at h
  · next hn => cases h; exact .inl ⟨hn, rfl⟩
  · next k hk => exact .inr ⟨k, hk, h⟩

theorem callMove_next {who : Caller} {c : ActiveCall} {k : Nat} {s t : State} (h : callMove who c k s = .next t) :
    (c.work = [] ∧ t = s.setCall who none) ∨ moveStride who c k s = .next t := by
  unfold callMove at h
  split at h
  · next hw => cases h; exact .inl ⟨hw, rfl⟩
  · exact .inr h

/-- What a change of a call leaves of the calls and of memory: the other calls are as they were; this one is over only
with nothing left, and stays sound; and memory changes only where a word taken is written back. -/
theorem CallStep.spec {who : Caller} {c : ActiveCall} {op : Option Instr} {s t : State} (h : CallStep who c op s t)
    (hc : s.callOf who = some c) :
    ∃ d, (∀ w, t.callOf w = if w = who then d else s.callOf w) ∧
      (∀ c' ∈ d, c'.req = c.req ∧ (c.Sound → c'.Sound) ∧ (who ≠ .host → c.busy = false → c'.busy = false)) ∧
      (d = none → c.work = []) ∧
      (t.mem = s.mem ∨ ∃ k w, c.phase k = some (.taken w) ∧ d = some (c.done k) ∧
        t.mem = Memory.writeWord s.cfg.hostByteOrder s.mem (strideAddr c.req k) w) := by
  have set : ∀ (x : State) d, (∀ w, x.callOf w = s.callOf w) →
      ∀ w, (x.setCall who d).callOf w = if w = who then d else s.callOf w := fun x d hx w => by
    rw [State.callOf_setCall _ _ _ _ (by simp [hx, hc]), hx]
  have same : ∀ w, s.callOf w = if w = who then some c else s.callOf w := fun w => by
    split
    · next hw => rw [hw, hc]
    · rfl
  have keeps : ∀ c' ∈ some c, c'.req = c.req ∧ (c.Sound → c'.Sound) ∧
      (who ≠ .host → c.busy = false → c'.busy = false) := by
    rintro _ ⟨⟩; exact ⟨rfl, fun h => h, fun _ h => h⟩
  have putd : ∀ (x : State) k p, (∀ w, x.callOf w = s.callOf w) → x.mem = s.mem →
      (p.isShown = true → c.busy = false) → (who ≠ .host → p.isShown = false) → t = x.setCall who (some (c.put k p)) →
      ∃ d, (∀ w, t.callOf w = if w = who then d else s.callOf w) ∧
        (∀ c' ∈ d, c'.req = c.req ∧ (c.Sound → c'.Sound) ∧ (who ≠ .host → c.busy = false → c'.busy = false)) ∧
        (d = none → c.work = []) ∧
        (t.mem = s.mem ∨ ∃ k w, c.phase k = some (.taken w) ∧ d = some (c.done k) ∧
          t.mem = Memory.writeWord s.cfg.hostByteOrder s.mem (strideAddr c.req k) w) := by
    rintro x k p hx hm hb hp rfl
    refine ⟨_, set x _ hx, ?_, by simp, .inl (by simpa using hm)⟩
    rintro _ ⟨⟩
    exact ⟨rfl, fun hS => hS.put k hb, fun hw hbz => ActiveCall.busy_put k hbz (hp hw)⟩
  rcases h with ⟨hw, -, rfl⟩ | ⟨k, -, hm⟩ | ⟨k, o, hw, hp, -, rfl⟩ | ⟨k, hw, -, rfl⟩
  · exact ⟨none, set s none fun _ => rfl, by simp, fun _ => hw, .inl (by simp)⟩
  · rcases moveStride_next hm with ⟨-, rfl⟩ | ⟨-, rfl⟩ | ⟨o, -, -, rfl⟩ | ⟨o, -, rfl, hs⟩ | ⟨o, -, rfl, hs⟩ | ⟨w, hp, rfl⟩
    · exact ⟨some c, same, keeps, by simp, .inl rfl⟩
    · exact putd s k _ (fun _ => rfl) rfl (by simp [Phase.isShown]) (fun _ => rfl) rfl
    · exact putd s k _ (fun _ => rfl) rfl (by simp [Phase.isShown]) (fun _ => rfl) rfl
    · rcases showStride_next hs with ⟨-, rfl⟩ | ⟨hb, u, hu, rfl⟩
      · exact ⟨some c, same, keeps, by simp, .inl rfl⟩
      · exact putd u k _ (fun w => by rw [exec_callOf hu]; rfl) (by rw [(exec_keeps hu).2.1]; rfl) (fun _ => hb)
          (fun h => absurd rfl h) rfl
    · rcases takeStride_next hs with ⟨-, rfl⟩ | ⟨w, -, -, rfl⟩
      · exact putd s k _ (fun _ => rfl) rfl (by simp [Phase.isShown]) (fun _ => rfl) rfl
      · exact putd (s.setPorts ⟨s.ports.data, false, s.ports.rst⟩) k (.taken w) (fun _ => rfl) rfl (by simp [Phase.isShown])
          (fun _ => rfl) rfl
    · refine ⟨_, set (s.setMem _) _ fun _ => rfl, ?_, by simp, .inr ⟨k, w, hp, rfl, by simp [writeStride]⟩⟩
      rintro _ ⟨⟩
      exact ⟨rfl, fun hS => hS.done k, fun _ hb => ActiveCall.busy_done k hb⟩
  · exact putd s k _ (fun _ => rfl) rfl (by simp [Phase.isShown]) (fun _ => rfl) rfl
  · refine ⟨_, set s _ fun _ => rfl, ?_, by simp, .inl (by simp)⟩
    rintro _ ⟨⟩
    exact ⟨rfl, fun hS => hS.pick k, fun h => absurd hw h⟩

theorem besideStride_cases (c : ActiveCall) (k : Nat) (s : State) :
    besideStride c k s = s ∨ ∃ o, c.phase k = some (.read o) ∧ besideStride c k s = packElsewhere .host c k o s := by
  unfold besideStride
  split
  · next o hp => exact .inr ⟨o, hp, rfl⟩
  all_goals exact .inl rfl

theorem readOutputs_next {s t : State} (h : readOutputs s = .next t) :
    (s.outValid = .ok false ∧ t = s) ∨ ∃ w, s.outValid = .ok true ∧ s.pixOut = .ok w ∧ t = s.consume w := by
  unfold readOutputs at h
  split at h
  · cases h
  · cases h
  · next hv _ => cases h; exact .inl ⟨hv, rfl⟩
  · next w hv hp => cases h; exact .inr ⟨w, hv, hp, rfl⟩

theorem otherAccess_next {a : Nat} {s t u : State} (h : otherAccess a s t = .next u) :
    s.callCovers a = false ∧ u = t := by
  unfold otherAccess at h
  split at h
  · cases h
  · next hc => cases h; exact ⟨by simpa using hc, rfl⟩

/-- The calls of other agents, by number. -/
theorem State.mem_others {s : State} {c : ActiveCall} : some c ∈ s.others ↔ ∃ n, s.callOf (.other n) = some c := by
  simp only [State.callOf, Option.join_eq_some_iff]
  exact List.mem_iff_getElem?

/-- The invariant, caller by caller. -/
theorem State.inv_iff (s : State) : s.Inv ↔
    Memory.wf s.mem ∧ (∀ who c, s.callOf who = some c → c.Sound ∧ (who ≠ .host → c.busy = false)) ∧
    ∀ who who' c d, who ≠ who' → s.callOf who = some c → s.callOf who' = some d → c.req.overlaps d.req = false := by
  constructor
  · rintro ⟨hw, h1, h2, h3, h4⟩
    have sound : ∀ n c, s.callOf (.other n) = some c → c.Sound ∧ c.busy = false :=
      fun n c hc => h2 _ (State.mem_others.2 ⟨n, hc⟩) c rfl
    refine ⟨hw, ?_, ?_⟩
    · rintro (_ | n) c hc
      · exact ⟨h1 c hc, fun h => absurd rfl h⟩
      · exact ⟨(sound n c hc).1, fun _ => (sound n c hc).2⟩
    · rintro (_ | n) (_ | m) c d hne hc hd
      · exact absurd rfl hne
      · exact h3 c hc _ (State.mem_others.2 ⟨m, hd⟩) d rfl
      · rw [HostCall.overlaps_comm]
        exact h3 d hd _ (State.mem_others.2 ⟨n, hc⟩) c rfl
      · simp only [State.callOf, Option.join_eq_some_iff] at hc hd
        obtain ⟨hn, hc⟩ := List.getElem?_eq_some_iff.1 hc
        obtain ⟨hm, hd⟩ := List.getElem?_eq_some_iff.1 hd
        rcases Nat.lt_or_gt_of_ne (fun e => hne (congrArg Caller.other e) : n ≠ m) with hlt | hlt
        · exact List.pairwise_iff_getElem.1 h4 n m hn hm hlt c hc d hd
        · rw [HostCall.overlaps_comm]
          exact List.pairwise_iff_getElem.1 h4 m n hm hn hlt d hd c hc
  · rintro ⟨hw, h1, h2⟩
    refine ⟨hw, fun c hc => (h1 .host c hc).1, ?_, ?_, List.pairwise_iff_getElem.2 ?_⟩
    · intro o ho c hc
      cases Option.mem_def.1 hc
      obtain ⟨n, hn⟩ := State.mem_others.1 ho
      exact ⟨(h1 _ c hn).1, (h1 _ c hn).2 (by simp)⟩
    · intro c hc o ho d hd
      cases Option.mem_def.1 hd
      obtain ⟨n, hn⟩ := State.mem_others.1 ho
      exact h2 .host _ c d (by simp) hc hn
    · intro n m hn hm hlt c hc d hd
      refine h2 (.other n) (.other m) c d (by simp; omega) ?_ ?_
      · simp only [State.callOf, Option.join_eq_some_iff]; exact List.getElem?_eq_some_iff.2 ⟨hn, hc⟩
      · simp only [State.callOf, Option.join_eq_some_iff]; exact List.getElem?_eq_some_iff.2 ⟨hm, hd⟩

/-- The two things a termination from outside can do (R108). -/
theorem terminateCall_cases (who : Caller) (s : State) :
    (s.callOf who = none ∧ terminateCall who s = s) ∨
    ∃ c vs, s.callOf who = some c ∧ vs.length = c.req.length ∧
      terminateCall who s =
        ((s.setMem (Memory.writeBytes s.mem c.req.base vs)).setCall who none).useFree c.req.length := by
  unfold terminateCall
  split
  · next h => exact .inl ⟨h, rfl⟩
  · next c h => exact .inr ⟨c, _, h, by simp, rfl⟩

end Sys2Proof.Machine
end

