-- ==== Sys2Proof/Laws/Step.lean ====
section
/-! SUPPORT. Everything one step can do, said once. -/

namespace Sys2Proof.Machine

/-- With nothing on the agenda and no call in progress, the block acts on its ports as they stand. -/
theorem step_ports {s : State} (ha : s.agenda = []) (hc : s.call = none) :
    step s = exec (selected s.cfg.registered s.ports) s := by
  simp [step, advance, ha, hc, runPorts_eq]

/-- With nothing on the agenda, the call in progress moves. -/
theorem step_host {s : State} {c : ActiveCall} (ha : s.agenda = []) (hc : s.call = some c) :
    step s = hostMove c s := by
  simp [step, advance, ha, hc]

/-- An event that does not wait, or that meets no call in progress, is handled and leaves the agenda. -/
theorem step_event {s : State} {e : Event} {rest : List Event} (ha : s.agenda = e :: rest)
    (h : s.call = none ∨ e.waits = false) : step s = handle e (s.setAgenda rest) := by
  rcases hc : s.call with _ | c
  · simp [step, advance, ha, hc]
  · simp [step, advance, ha, hc, h.resolve_left (by simp [hc])]

/-- An event of the host's own waits on the agenda while its call moves. -/
theorem step_waits {s : State} {c : ActiveCall} {e : Event} {rest : List Event} (ha : s.agenda = e :: rest)
    (hc : s.call = some c) (hw : e.waits = true) : step s = hostMove c s := by
  simp [step, advance, ha, hc, hw]

/-- A step in which the host's call moves stride `k`. -/
theorem step_stride {s : State} {c : ActiveCall} {k : Nat} (hc : s.call = some c) (hk : hostStride s = some k)
    (hl : k ∈ c.left) : ∃ es, step s = moveStride .host c k (s.setAgenda es) := by
  have hw : c.work ≠ [] := fun hw => by simp [ActiveCall.left, hw] at hl
  have hm : ∀ x : State, c.next = some k → hostMove c x = moveStride .host c k x := fun x hn => by simp [hostMove, hn]
  have hcm : ∀ x : State, callMove .host c k x = moveStride .host c k x := fun x => by
    unfold callMove; split
    · next h => exact absurd h hw
    · rfl
  rcases ha : s.agenda with _ | ⟨e, rest⟩
  · exact ⟨s.agenda, by rw [step_host ha hc, hm s (by simpa [hostStride, ha, hc] using hk)]; rfl⟩
  · by_cases hwt : e.waits = true
    · have hn : c.next = some k := by cases e <;> simp_all [hostStride, Event.waits]
      exact ⟨s.agenda, by rw [step_waits ha hc hwt, hm s hn]; rfl⟩
    · refine ⟨rest, ?_⟩
      rw [step_event ha (.inr (by simpa using hwt))]
      cases e with
      | host =>
        have hn : c.next = some k := by simpa [hostStride, ha, hc] using hk
        simp [handle, hc, hm _ hn]
      | stride who j =>
        rcases who with _ | n
        · have : j = k := by simpa [hostStride, ha, hc] using hk
          subst this
          simp [handle, hc, hcm]
        · simp [hostStride, ha, hc, Event.waits] at hk
      | _ => simp_all [hostStride, Event.waits]

/-- What the events that are neither an instant of the block nor a change of a call in progress do. -/
inductive EventEffect (s t : State) : Event → Prop where
  | drive (p : Ports) (ht : t = s.setPorts p) : EventEffect s t (.drive p)
  | readOut (h : readOutputs s = .next t) : EventEffect s t .readOut
  | call (c : HostCall) (h : startCall c s = .next t) : EventEffect s t (.call c)
  | otherCall (c : HostCall) (h : startOther c s = .next t) : EventEffect s t (.otherCall c)
  | otherRead (a : Nat) (hc : s.callCovers a = false) (ht : t = s) : EventEffect s t (.otherRead a)
  | otherWrite (a : Nat) (v : Byte) (hc : s.callCovers a = false) (ht : t = s.setMem (Memory.write s.mem a v)) :
      EventEffect s t (.otherWrite a v)
  | terminate (who : Caller) (ht : t = terminateCall who s) : EventEffect s t (.terminate who)
  | powerLoss (ht : t = s.losePower) : EventEffect s t .powerLoss
  | idle (e : Event) (hp : e ≠ .powerLoss) (ht : t = s) : EventEffect s t e

/-- Everything one step can be: an instant of the block; a change of a call by its caller, with the operation the block
performs then; or an event of another kind. -/
inductive StepCase (s t : State) : Prop where
  | operation (i : Instr) (es : List Event) (hn : nextOperation s = some i) (hm : mover s = none)
      (hl : losesPower s = false) (h : exec i (s.setAgenda es) = .next t)
  | call (who : Caller) (c : ActiveCall) (es : List Event) (hc : s.callOf who = some c) (hm : mover s = some who)
      (hl : losesPower s = false) (h : CallStep who c (nextOperation s) (s.setAgenda es) t)
  | event (e : Event) (rest : List Event) (ha : s.agenda = e :: rest) (hw : s.call = none ∨ e.waits = false)
      (hn : nextOperation s = none) (h : EventEffect (s.setAgenda rest) t e)

/-- A move of the host's call, when no event says otherwise, is a change of that call. -/
theorem hostMove_step {c : ActiveCall} {s t : State} {op : Option Instr} (h : hostMove c s = .next t)
    (ho : op = match c.next with | some k => strideOperation c k s | none => none) : CallStep .host c op s t := by
  rcases hostMove_next h with ⟨hn, rfl⟩ | ⟨k, hk, hm⟩
  · exact .returns (ActiveCall.next_eq_none.1 hn) (by simpa [hn] using ho) rfl
  · exact .moves k (by simpa [hk] using ho) hm

/-- The block performs an operation at an edge, and where the host's call moves, but at no other event. -/
theorem nextOperation_aside {s : State} {e : Event} {rest : List Event} (ha : s.agenda = e :: rest)
    (hw : s.call = none ∨ e.waits = false)
    (he : e ≠ .edge ∧ e ≠ .rstEdge ∧ e ≠ .host ∧ ∀ k, e ≠ .stride .host k) : nextOperation s = none := by
  obtain ⟨h1, h2, h3, h4⟩ := he
  rcases hc : s.call with _ | c
  · cases e <;> simp_all [nextOperation, hostOperation]
  · have hw' := hw.resolve_left (by simp [hc])
    cases e with
    | stride who k => cases who <;> simp_all [nextOperation, hostOperation, hostStride]
    | _ => simp_all [nextOperation, hostOperation, hostStride]

/-- An event that is handled is one of these cases. -/
theorem handle_next {e : Event} {rest : List Event} {s t : State} (ha : s.agenda = e :: rest)
    (hw : s.call = none ∨ e.waits = false) (h : handle e (s.setAgenda rest) = .next t) : StepCase s t := by
  have idle : ∀ e' : Event, e = e' → e' ≠ .powerLoss → nextOperation s = none → t = s.setAgenda rest → StepCase s t :=
    fun e' he hp hn ht => .event e' rest (he ▸ ha) (he ▸ hw) hn (.idle e' hp ht)
  cases e with
  | drive p =>
    cases h
    have hc : s.call = none := by simpa [Event.waits] using hw
    exact .event _ rest ha hw (by simp [nextOperation, hostOperation, ha, hc]) (.drive p rfl)
  | edge =>
    simp only [handle, runPorts_eq] at h
    exact .operation _ rest (by simp [nextOperation, ha]) (by cases hc : s.call <;> simp [mover, ha, hc, Event.waits])
      (by simp [losesPower, ha]) h
  | rstEdge =>
    simp only [handle] at h
    exact .operation _ rest (by simp [nextOperation, ha]) (by cases hc : s.call <;> simp [mover, ha, hc, Event.waits])
      (by simp [losesPower, ha]) h
  | readOut =>
    exact .event _ rest ha hw (nextOperation_aside ha hw (by simp))
      (.readOut h)
  | call c =>
    have hc : s.call = none := by simpa [Event.waits] using hw
    exact .event _ rest ha hw (by simp [nextOperation, hostOperation, ha, hc]) (.call c h)
  | host =>
    simp only [handle] at h
    split at h
    · next hc => cases h; exact idle _ rfl (by simp) (by simp at hc; simp [nextOperation, hostOperation, ha, hc]) rfl
    · next c hc =>
      simp at hc
      exact .call .host c rest hc (by simp [mover, ha]) (by simp [losesPower, ha])
        (hostMove_step h (by cases hn : c.next <;> simp [nextOperation, hostOperation, hostStride, ha, hc, hn]; all_goals rfl))
  | choose k =>
    cases h
    have hn : nextOperation s = none := nextOperation_aside ha hw (by simp)
    rcases hc : s.call with _ | c
    · exact idle _ rfl (by simp) hn (by simp [State.setCall, State.setAgenda, hc])
    · exact .call .host c rest hc (by simp [mover, ha]) (by simp [losesPower, ha])
        (.picks k rfl hn (by simp [hc]))
  | otherCall c =>
    exact .event _ rest ha hw (nextOperation_aside ha hw (by simp))
      (.otherCall c h)
  | stride who k =>
    simp only [handle] at h
    split at h
    · next hc =>
      cases h
      refine idle _ rfl (by simp) ?_ rfl
      rcases who with _ | n
      · simp at hc; simp [nextOperation, hostOperation, ha, hc]
      · exact nextOperation_aside ha hw (by simp)
    · next c hc =>
      simp at hc
      refine .call who c rest hc (by simp [mover, ha]) (by simp [losesPower, ha]) ?_
      have hn : nextOperation s = if who = .host then strideOperation c k s else none := by
        rcases who with _ | n
        · simp at hc; simp [nextOperation, hostOperation, hostStride, ha, hc]
        · exact nextOperation_aside ha hw (by simp)
      rcases callMove_next h with ⟨hw, rfl⟩ | hm
      · refine .returns hw ?_ rfl
        rw [hn]; split <;> simp [strideOperation, ActiveCall.phase, hw]
      · exact .moves k hn hm
  | elsewhere k =>
    have hn : nextOperation s = none := nextOperation_aside ha hw (by simp)
    simp only [handle] at h
    split at h
    · next hc => cases h; exact idle _ rfl (by simp) hn rfl
    · next c hc =>
      cases h
      simp at hc
      rcases besideStride_cases c k (s.setAgenda rest) with he | ⟨o, hp, he⟩
      · exact idle _ rfl (by simp) hn he
      · exact .call .host c rest hc (by simp [mover, ha]) (by simp [losesPower, ha]) (.beside k o rfl hp hn he)
  | otherRead a =>
    obtain ⟨hc, rfl⟩ := otherAccess_next h
    exact .event _ rest ha hw (nextOperation_aside ha hw (by simp))
      (.otherRead a hc rfl)
  | otherWrite a v =>
    obtain ⟨hc, rfl⟩ := otherAccess_next h
    exact .event _ rest ha hw (nextOperation_aside ha hw (by simp))
      (.otherWrite a v hc rfl)
  | terminate who =>
    cases h
    exact .event _ rest ha hw (nextOperation_aside ha hw (by simp))
      (.terminate who rfl)
  | powerLoss =>
    cases h
    exact .event _ rest ha hw (nextOperation_aside ha hw (by simp))
      (.powerLoss rfl)

theorem step_next {s t : State} (h : step s = .next t) : StepCase s t := by
  unfold step advance at h
  split at h
  · next ha hc =>
    rw [runPorts_eq] at h
    exact .operation _ s.agenda (by simp [nextOperation, ha, hc]) (by simp [mover, ha, hc]) (by simp [losesPower, ha]) h
  · next c ha hc =>
    exact .call .host c s.agenda hc (by simp [mover, ha, hc]) (by simp [losesPower, ha])
      (hostMove_step h (by cases hn : c.next <;> simp [nextOperation, hostOperation, hostStride, ha, hc, hn]; all_goals rfl))
  · next e rest ha hc => exact handle_next ha (.inl hc) h
  · next e rest c ha hc =>
    split at h
    · next hw =>
      have hn : nextOperation s = match c.next with | some k => strideOperation c k s | none => none := by
        cases e <;> simp [Event.waits] at hw <;> cases hn : c.next <;>
          simp [nextOperation, hostOperation, hostStride, ha, hc, hn, Event.waits]
      refine .call .host c s.agenda hc ?_ ?_ (hostMove_step h hn)
      · cases e <;> simp [Event.waits] at hw <;> simp [mover, ha, hc, Event.waits]
      · cases e <;> simp [Event.waits] at hw <;> simp [losesPower, ha]
    · next hw => exact handle_next ha (.inr (by simpa using hw)) h

end Sys2Proof.Machine
end

