-- ==== Sys2Proof/Laws/HostPack.lean ====
section
/-! SUPPORT. The four bytes of a stride, the strides of a call as a function of memory, and runs of the machine. -/

namespace Sys2Proof.Machine

/-- Four bytes are equal when the four reads are. -/
theorem fourBytes_congr {m m' : Memory} {a : Nat} (h : ∀ j < 4, Memory.read m (a + j) = Memory.read m' (a + j)) :
    fourBytes m a = fourBytes m' a := by
  simp only [fourBytes, h 1 (by omega), h 2 (by omega), h 3 (by omega)]
  rw [show Memory.read m a = Memory.read m' a from h 0 (by omega)]

/-- Equal four bytes give equal reads within them. -/
theorem read_eq_of_fourBytes {m m' : Memory} {b a : Nat} (h : fourBytes m b = fourBytes m' b) (h1 : b ≤ a)
    (h2 : a < b + 4) : Memory.read m a = Memory.read m' a := by
  simp only [fourBytes, List.cons.injEq] at h
  obtain ⟨j, rfl⟩ : ∃ j, a = b + j := ⟨a - b, by omega⟩
  have : j < 4 := by omega
  interval_cases j <;> simp [h]

/-- The bytes a word write leaves at its address are the word's bytes in the host's order (R37). -/
theorem fourBytes_writeWord (order : ByteOrder) (m : Memory) (a : Nat) (w : Word) :
    fourBytes (Memory.writeWord order m a w) a = wordBytes order w := by
  cases order <;> simp [fourBytes, Memory.read_writeWord, wordBytes]

/-- A stride's bundle depends on its four bytes alone. -/
theorem strideBundle_congr {m m' : Memory} {c : HostCall} {k : Nat}
    (h : fourBytes m (strideAddr c k) = fourBytes m' (strideAddr c k)) : strideBundle m c k = strideBundle m' c k := by
  simp only [fourBytes, List.cons.injEq] at h
  simp [strideBundle, h]

/-- Packing one stride changes no byte outside it. -/
theorem read_packStride (order : ByteOrder) (c : HostCall) (m : Memory) {k a : Nat}
    (h : a < strideAddr c k ∨ strideAddr c k + 4 ≤ a) :
    Memory.read (packStride order c m k) a = Memory.read m a :=
  Memory.read_writeWord_outside _ _ _ _ h

/-- Packing a list of strides, each once: every listed stride ends as its own original bytes packed, and every byte
outside them as it was. -/
theorem packStrides_spec (order : ByteOrder) (c : HostCall) {ks : List Nat} (hn : ks.Nodup) (m : Memory) :
    (∀ k ∈ ks, fourBytes (packStrides order c m ks) (strideAddr c k) =
      wordBytes order (packWord (strideBundle m c k))) ∧
    ∀ a, (∀ k ∈ ks, a < strideAddr c k ∨ strideAddr c k + 4 ≤ a) →
      Memory.read (packStrides order c m ks) a = Memory.read m a := by
  induction ks generalizing m with
  | nil => simp [packStrides]
  | cons j ks ih =>
    obtain ⟨hj, hn⟩ := List.nodup_cons.1 hn
    obtain ⟨ih1, ih2⟩ := ih hn (packStride order c m j)
    rw [show packStrides order c m (j :: ks) = packStrides order c (packStride order c m j) ks from rfl]
    refine ⟨fun k hk => ?_, fun a ha => ?_⟩
    · rcases List.mem_cons.1 hk with rfl | hk
      · rw [← fourBytes_writeWord order m (strideAddr c k)]
        refine fourBytes_congr fun i hi => ih2 _ fun k' hk' => ?_
        have : k' ≠ k := fun e => hj (e ▸ hk')
        simp only [strideAddr]; omega
      · rw [ih1 k hk, strideBundle_congr (m' := m)]
        refine fourBytes_congr fun i hi => read_packStride _ _ _ ?_
        have : k ≠ j := fun e => hj (e ▸ hk)
        simp only [strideAddr]; omega
    · rw [ih2 a fun k hk => ha k (by simp [hk])]
      exact read_packStride _ _ _ (ha j (by simp))

/-- A run of one more step. -/
theorem run_succ {n : Nat} {s t : State} (h : step s = .next t) :
    Host.Core.run core (n + 1) s = Host.Core.run core n t := by
  have h' : core.step s = .next t := h
  simp only [Host.Core.run, h']

/-- The operations of one more step. -/
theorem operations_succ {n : Nat} {s t : State} (h : step s = .next t) :
    operations (n + 1) s = (nextOperation s).toList ++ operations n t := by
  simp only [operations, h]

end Sys2Proof.Machine
end

