-- ==== Sys2Proof/Laws/PerInstr.lean ====
section
/-! SUPPORT. What holds of every operation as syntax, one lemma per constructor: the family `Encoding` of LAWS.json. -/

namespace Sys2Proof.Laws.Encoding

/-- An operation's frame is nine bytes long (R61), its first byte holds a control vector and nothing else (R52), and the
operation is well-formed in exactly the variant that the table of R57 gives it. -/
def Statement (i : Instr) : Prop :=
  (encode i).length = 9 ∧ (∃ rst v, (encode i).head? = some (ctlByte rst v)) ∧
  ∀ v, i.wellFormed v = true ↔ v = i.variant

theorem wellFormed_iff (i : Instr) (v : Variant) : i.wellFormed v = true ↔ v = i.variant := by
  simp [Instr.wellFormed, eq_comm]

theorem pack (o : Bundle) (inValid : Bool) : Statement (.pack o inValid) :=
  ⟨rfl, ⟨false, inValid, rfl⟩, wellFormed_iff _⟩

theorem capture (o : Bundle) : Statement (.capture o) :=
  ⟨rfl, ⟨false, true, rfl⟩, wellFormed_iff _⟩

theorem idle : Statement .idle :=
  ⟨rfl, ⟨false, false, rfl⟩, wellFormed_iff _⟩

theorem reset (inValid : Bool) : Statement (.reset inValid) :=
  ⟨rfl, ⟨true, inValid, rfl⟩, wellFormed_iff _⟩

end Sys2Proof.Laws.Encoding
end

