-- ==== Sys2Proof/Tests/Slice0.lean ====
section
/-! SUPPORT. Tests with expected results from the spec (95_test_vectors.md, and its encodings written out by hand), and for
every statement with hypotheses a concrete state that meets them. -/

namespace Sys2Proof.Tests

open Sys2Proof.Machine

/-- Whether an outcome is a next state with a property. -/
def nextWith (o : Host.Outcome State Fault Refusal) (p : State → Bool) : Bool :=
  match o with
  | .next t => p t
  | _       => false

/-- Whether an outcome is a given fault. -/
def faultsWith (o : Host.Outcome State Fault Refusal) (f : Fault) : Bool :=
  match o with
  | .fault g => decide (g = f)
  | _        => false

/-- The combinational variant, little-endian host. -/
def comb : State := State.resetOf ⟨.combinational, .le⟩

/-- The single-cycle variant after a RESET, big-endian host. -/
def clocked : State := State.resetOf ⟨.singleCycle, .be⟩

/-- The single-cycle variant with given registers. -/
def holding (w : Word) (v : Bool) : State := clocked.setRegs w v

/-- V-P1: the standard layout. -/
def vP1 : Bundle := ⟨0x10, 0x20, 0x30, 0x40, 0, 8, 16, 24⟩

/-- V-P2: the source's example scenario. -/
def vP2 : Bundle := ⟨0x00, 0x00, 0xFF, 0xFF, 0, 8, 16, 24⟩

/-- V-P6: all channels 0xFF. -/
def vP6 : Bundle := ⟨0xFF, 0xFF, 0xFF, 0xFF, 0, 8, 16, 24⟩

/-- V-P10: shift 25 cuts one bit. -/
def vP10 : Bundle := ⟨0x00, 0x00, 0x00, 0xFF, 32, 32, 32, 25⟩

/-- V-P17: shift 64, where a datapath that reduced the amount would not give zero. -/
def vP17 : Bundle := ⟨0x5A, 0x00, 0x00, 0x00, 64, 32, 32, 32⟩

/-- V-P20: overlapping fields. -/
def vP20 : Bundle := ⟨0xFF, 0x0F, 0x00, 0x00, 0, 4, 32, 32⟩

/-- V-P22: 565-like shifts, no masking. -/
def vP22 : Bundle := ⟨0xFF, 0xFF, 0xFF, 0x00, 0, 5, 11, 32⟩

/-- Ports with a bundle, `in_valid` and `rst`. -/
def showing (s : State) (o : Bundle) (v r : Bool) : State := s.setPorts ⟨o, v, r⟩

/-- The call of V-B1 and V-B2, standard shifts, 4 bytes at 0x1000. -/
def stdCall : HostCall := ⟨0x1000, 4, 4, 16, 8, 0, 24⟩

/-- The buffer of V-B1. -/
def buf : Memory := [(0x1000, 0x10), (0x1001, 0x20), (0x1002, 0x30), (0x1003, 0x40)]

/-! ### Well-formedness: one ill-formed term for each operation -/

theorem test_wellFormed_refuses_pack_in_single_cycle : (Instr.pack vP1 true).wellFormed .singleCycle = false := by decide
theorem test_wellFormed_refuses_capture_in_combinational :
    (Instr.capture vP1).wellFormed .combinational = false := by decide
theorem test_wellFormed_refuses_idle_in_combinational : Instr.idle.wellFormed .combinational = false := by decide
theorem test_wellFormed_refuses_reset_in_combinational :
    (Instr.reset true).wellFormed .combinational = false := by decide
theorem test_ill_formed_is_refused : exec (.capture vP1) comb = .refused .notInVariant := rfl

/-! ### Decoding: words written out from R51 and R52 -/

/-- V-P1's `OPB`: sa 18, sr 10, sg 08, sb 00, a 40, r 30, g 20, b 10. -/
theorem test_decode_pack : decodeTableWord 64 0x1810080040302010 = some (.pack vP1 false) := by decide
/-- `CTL` = 01 under the `OPB` of V-P2. -/
theorem test_decode_capture : decodeTableWord 72 0x18100800FFFF000001 = some (.capture vP2) := by decide
/-- `CTL` = 00. -/
theorem test_decode_idle : decodeTableWord 8 0b00 = some .idle := by decide
/-- `CTL` = 1x: RESET with either `in_valid`. -/
theorem test_decode_reset : decodeTableWord 8 0b10 = some (.reset false) ∧ decodeTableWord 8 0b11 = some (.reset true) := by
  decide
theorem test_decode_rejects_short_frame : decode .singleCycle [0x01] = .error (.frameLength 1) := rfl
theorem test_encode_capture : encode (.capture vP2) = [0x01, 0x00, 0x00, 0xFF, 0xFF, 0x00, 0x08, 0x10, 0x18] := by decide
/-- The bundle as one value, the `OPB` column of V-P1. -/
theorem test_opb_of_vP1 : vP1.toOpb = 0x1810080040302010#64 ∧ Bundle.ofOpb 0x1810080040302010#64 = vP1 := by decide

/-! ### PACK: vectors V-P1, V-P10, V-P17, V-P20, V-P22 -/

theorem test_pack_standard : nextWith (exec (.pack vP1 true) comb)
    (fun t => t.pixOut.toOption = some 0x40302010#32 && t.outValid.toOption = some true) = true := by decide
theorem test_pack_word_corners : packWord vP10 = 0xFE000000#32 ∧ packWord vP17 = 0x00000000#32 ∧
    packWord vP20 = 0x000000FF#32 ∧ packWord vP22 = 0x0007FFFF#32 := by decide

/-! ### Clock-edge operations: vectors V-C2, V-C3, V-C6 and the read before RESET V-C8 -/

/-- V-C2: no dependence on the old state. -/
theorem test_capture_overwrites : nextWith (exec (.capture vP2) (holding 0x40302010 true))
    (fun t => t.pixQ = 0xFFFF0000#32 && t.vldQ) = true := by decide
/-- V-C3. -/
theorem test_idle_holds : nextWith (exec .idle (holding 0xFFFF0000 true))
    (fun t => t.pixQ = 0xFFFF0000#32 && !t.vldQ) = true := by decide
/-- V-C6, by a step: RESET wins over the pixel of V-P6. -/
theorem test_reset_wins : nextWith (step (showing (holding 0x40302010 true) vP6 true true))
    (fun t => t.pixQ = 0x00000000#32 && !t.vldQ) = true := by decide
/-- V-C8. -/
theorem test_unreset_read_faults :
    faultsWith (step ((State.powerUp ⟨.singleCycle, .le⟩).setAgenda [.readOut])) .unresetRead = true := by decide
/-- A CAPTURE before the first RESET does not end the interval of R28. -/
theorem test_capture_before_reset_still_faults : nextWith (exec (.capture vP1) (State.powerUp ⟨.singleCycle, .le⟩))
    (fun t => faultsWith (step (t.setAgenda [.readOut])) .unresetRead) = true := by decide

/-! ### The word a test places is what the next step runs -/

theorem test_place_capture : nextWith (step (State.reset.withFetchWord 72 0x18100800FFFF000001))
    (fun t => t.pixQ = 0xFFFF0000#32 && t.vldQ) = true := by decide
theorem test_place_idle : nextWith (step ((holding 0x12345678 true).withFetchWord 8 0b00))
    (fun t => t.pixQ = 0x12345678#32 && !t.vldQ) = true := by decide
theorem test_place_reset : nextWith (step ((holding 0x12345678 true).withFetchWord 8 0b11))
    (fun t => t.pixQ = 0#32 && !t.vldQ) = true := by decide
theorem test_place_pack : nextWith (step (State.reset.withFetchWord 64 0x1810080040302010))
    (fun t => t.pixOut.toOption = some 0x40302010#32) = true := by decide

/-! ### The host call: vectors of section 4 -/

/-- V-B1 and V-B2. -/
theorem test_call_standard :
    fourBytes (hostPackMem .le stdCall buf) 0x1000 = [0x10, 0x20, 0x30, 0x40] ∧
    fourBytes (hostPackMem .be stdCall buf) 0x1000 = [0x40, 0x30, 0x20, 0x10] := by decide
/-- V-B6: not idempotent. -/
theorem test_call_swaps_red_and_blue :
    fourBytes (hostPackMem .le ⟨0x1000, 4, 4, 0, 8, 16, 24⟩ buf) 0x1000 = [0x30, 0x20, 0x10, 0x40] := by decide
/-- V-B16: the byte after the buffer keeps its value. -/
theorem test_call_shift_six : fourBytes (hostPackMem .le ⟨0x1000, 4, 4, 6, 6, 6, 6⟩ (buf ++ [(0x1004, 0x99)])) 0x1000 =
    [0x00, 0x1C, 0x00, 0x00] ∧
    Memory.read (hostPackMem .le ⟨0x1000, 4, 4, 6, 6, 6, 6⟩ (buf ++ [(0x1004, 0x99)])) 0x1004 = 0x99 := by decide
/-- V-B11 to V-B14. -/
theorem test_call_faults :
    faultsWith (step (comb.setAgenda [.call ⟨0x1000, 6, 8, 16, 8, 0, 24⟩])) .lengthNotMultipleOf4 = true ∧
    faultsWith (step (comb.setAgenda [.call ⟨0, 8, 8, 16, 8, 0, 24⟩])) .nullBuffer = true ∧
    faultsWith (step (comb.setAgenda [.call ⟨0x1002, 8, 8, 16, 8, 0, 24⟩])) .misalignedBuffer = true ∧
    faultsWith (step (comb.setAgenda [.call ⟨0x1000, 12, 8, 16, 8, 0, 24⟩])) .bufferTooShort = true := by decide

/-- A call of two strides at 0x1000. -/
def twoStrides : HostCall := ⟨0x1000, 8, 8, 16, 8, 0, 24⟩

/-- Another agent's call of one stride, in the bytes after it. -/
def nextStripe : HostCall := ⟨0x1008, 4, 4, 16, 8, 0, 24⟩

/-- The call of two strides in progress with given work, the bundle and the word of its first stride on the block, and a
call of another agent in the stripe after it. -/
def inCall (s : State) (work : List (Nat × Phase)) (es : List Event) : State :=
  ((((s.setMem buf).setCall .host (some ⟨twoStrides, work⟩)).addOther nextStripe.begun).setAgenda es).setRegs 0x40302010 true
    |>.setPorts ⟨vP1, true, false⟩

/-- Its first stride presented, the second not read. -/
def firstShown : List (Nat × Phase) := [(0, .shown vP1), (1, .unread)]

/-- V-B15: another thread writes `buf[5]`; the byte after both ranges is no race. -/
theorem test_call_race :
    faultsWith (step (inCall comb firstShown [.otherWrite 0x1005 0xAA])) .dataRace = true ∧
    nextWith (step (inCall comb firstShown [.otherWrite 0x100C 0xAA])) (fun t => Memory.read t.mem 0x100C = 0xAA) = true := by
  decide
/-- R46: another agent's call races if its range overlaps one in progress, and starts if it adjoins. -/
theorem test_overlapping_call_races :
    faultsWith (step (inCall comb firstShown [.otherCall ⟨0x1004, 4, 4, 16, 8, 0, 24⟩])) .dataRace = true ∧
    nextWith (step (inCall comb firstShown [.otherCall ⟨0x100C, 4, 4, 16, 8, 0, 24⟩]))
      (fun t => decide (t.others.length = 2)) = true := by decide
/-- The host of P3 takes the word of stride 0, and writes it big-endian. -/
theorem test_take_and_write_big_endian :
    nextWith (step (inCall clocked firstShown []))
      (fun t => decide (t.call = some ⟨twoStrides, [(0, .taken 0x40302010), (1, .unread)]⟩) && !t.ports.inValid) = true ∧
    nextWith (step (inCall clocked [(0, .taken 0x40302010), (1, .unread)] []))
      (fun t => decide (fourBytes t.mem 0x1000 = [0x40, 0x30, 0x20, 0x10])) = true := by decide
/-- R98, R106: stride 1 is read while stride 0 is on the block, and waits to be presented. -/
theorem test_two_strides_at_a_time :
    nextWith (step (inCall clocked firstShown [.stride .host 1]))
      (fun t => decide (t.call = some ⟨twoStrides, [(0, .shown vP1), (1, .read ⟨0, 0, 0, 0, 0, 8, 16, 24⟩)]⟩)) = true ∧
    nextWith (step (inCall clocked [(0, .shown vP1), (1, .read vP2)] [.stride .host 1]))
      (fun t => decide (t.call = some ⟨twoStrides, [(0, .shown vP1), (1, .read vP2)]⟩)) = true := by decide
/-- R107: another agent's call reads its stride. -/
theorem test_other_call_moves : nextWith (step (inCall clocked firstShown [.stride (.other 0) 0]))
    (fun t => decide (t.others = [some ⟨nextStripe, [(0, .read ⟨0, 0, 0, 0, 0, 8, 16, 24⟩)]⟩])) = true := by decide

/-! ### Witnesses: for each statement with hypotheses, a state and operands that meet them -/

/-- OperationSelection: one state for each row of R55. -/
theorem witness_OperationSelection :
    comb.cfg.registered = .combinational ∧
    (clocked.cfg.registered = .singleCycle ∧ (showing clocked vP1 true true).ports.rst = true) ∧
    (clocked.cfg.registered = .singleCycle ∧ (showing clocked vP1 true false).ports.rst = false ∧
      (showing clocked vP1 true false).ports.inValid = true) ∧
    (clocked.cfg.registered = .singleCycle ∧ (showing clocked vP1 false false).ports.rst = false ∧
      (showing clocked vP1 false false).ports.inValid = false) := by decide

/-- EveryInputIsLegal, EdgeStepFunction, StepRunsDecodedOperation (an edge next). -/
theorem witness_edge_next : (clocked.setAgenda [.edge]).cfg.registered = .singleCycle ∧
    (clocked.setAgenda [.edge]).agenda = .edge :: [] ∧
    decode (clocked.setAgenda [.edge]).cfg.registered (fetch (clocked.setAgenda [.edge])) = .ok .idle :=
  ⟨rfl, rfl, rfl⟩

/-- StepRunsDecodedOperation: nothing to do; a RESET edge next; a call that presents. -/
theorem witness_StepRunsDecodedOperation :
    (comb.agenda = [] ∧ comb.call = none ∧ decode comb.cfg.registered (fetch comb) = .ok (.pack Bundle.zero false)) ∧
    (clocked.setAgenda [.rstEdge]).agenda = .rstEdge :: [] ∧
    ∃ c i u, (inCall clocked [(0, .read vP1)] []).agenda = [] ∧ (inCall clocked [(0, .read vP1)] []).call = some c ∧
      c.next = some 0 ∧ c.phase 0 = some (.read vP1) ∧ c.busy = false ∧
      decode (inCall clocked [(0, .read vP1)] []).cfg.registered
        (fetch ((inCall clocked [(0, .read vP1)] []).setPorts ⟨vP1, true, false⟩)) = .ok i ∧
      exec i ((inCall clocked [(0, .read vP1)] []).setPorts ⟨vP1, true, false⟩) = .next u :=
  ⟨⟨rfl, rfl, rfl⟩, rfl, _, _, _, rfl, rfl, rfl, rfl, rfl, rfl, rfl⟩

/-- DecodeEncodeAgree: a well-formed operation in each variant, nine bytes, and another length. -/
theorem witness_DecodeEncodeAgree :
    (Instr.pack vP1 true).wellFormed .combinational = true ∧ (Instr.reset false).wellFormed .singleCycle = true ∧
    (encode (.capture vP1)).length = 9 ∧ ([] : List Byte).length ≠ 9 := by decide

/-- ShiftAmountRanges: both ends of each range. -/
theorem witness_ShiftAmountRanges :
    ((0 : Byte).toNat ≤ 24 ∧ (24 : Byte).toNat ≤ 24) ∧
    (25 ≤ (25 : Byte).toNat ∧ (25 : Byte).toNat ≤ 31 ∧ 25 ≤ (31 : Byte).toNat ∧ (31 : Byte).toNat ≤ 31) ∧
    (32 ≤ (32 : Byte).toNat ∧ 32 ≤ (255 : Byte).toNat) ∧
    comb.cfg.registered = .combinational ∧ clocked.cfg.registered = .singleCycle := by decide

/-- CircuitFormAgrees, PackResult, CombinationalOutputs, PackDependsOnOperandsAlone: two states of the combinational
variant, with equal ports. -/
theorem witness_combinational :
    comb.cfg.registered = .combinational ∧ (comb.setRegs 0x12345678 true).cfg.registered = .combinational ∧
    (comb.setRegs 0x12345678 true).ports = comb.ports := by decide

/-- CaptureResult, IdleResult, ResetResult, CapturesOverwrite, NoOperationReadsState. -/
theorem witness_single_cycle : (holding 0x40302010 true).cfg.registered = .singleCycle ∧
    (holding 0x40302010 true).resetSeen = true := by decide

/-- MergeOrderIrrelevant: the terms in reverse. -/
theorem witness_MergeOrderIrrelevant : (((channels vP1).map fun p => contribution p.1 p.2).reverse).Perm
    ((channels vP1).map fun p => contribution p.1 p.2) := List.reverse_perm _

/-- ChannelIndependence: green alone at bit 12 of V-P1, red at the top bit of its field, and disjoint fields. -/
theorem witness_ChannelIndependence :
    channels vP1 = [(0x40, 24), (0x30, 16)] ++ (0x20, 8) :: [(0x10, 0)] ∧ fieldCovers 8 12 ∧ fieldCovers 16 23 ∧
    (∀ q ∈ [((0x40 : Byte), (24 : Byte)), (0x30, 16)] ++ [(0x10, 0)], ¬ fieldCovers q.2 12) ∧
    (channels vP1).Pairwise (fun p q => ∀ k, ¬ (fieldCovers p.2 k ∧ fieldCovers q.2 k)) := by
  refine ⟨by decide, by decide, by decide, by simp [fieldCovers], ?_⟩
  simp [channels, vP1, fieldCovers]
  grind

/-- AllShiftsLarge: the least and the greatest such amount. -/
theorem witness_AllShiftsLarge : ∃ o : Bundle, 32 ≤ o.sb.toNat ∧ 32 ≤ o.sg.toNat ∧ 32 ≤ o.sr.toNat ∧ 32 ≤ o.sa.toNat :=
  ⟨⟨0xFF, 0xFF, 0xFF, 0xFF, 32, 255, 32, 255⟩, by decide⟩

/-- ResetResult, its last clause: `rst` raised, and lowered again, with no edge. -/
theorem witness_ResetResult : ∀ r : Bool, (clocked.setAgenda [.drive ⟨vP1, true, r⟩]).call = none ∧
    (clocked.setAgenda [.drive ⟨vP1, true, r⟩]).agenda = .drive ⟨vP1, true, r⟩ :: [] :=
  fun _ => ⟨rfl, rfl⟩

/-- ResetDropsPixel. -/
theorem witness_ResetDropsPixel : ((showing clocked vP6 true true).setAgenda [.edge]).cfg.registered = .singleCycle ∧
    ((showing clocked vP6 true true).setAgenda [.edge]).agenda = .edge :: [] ∧
    ((showing clocked vP6 true true).setAgenda [.edge]).ports.rst = true ∧
    ((showing clocked vP6 true true).setAgenda [.edge]).ports.inValid = true := by decide

/-- OperationFrame, ResetValues: each operation gives a next state somewhere. -/
theorem witness_operations_complete :
    (∃ t, exec (.pack vP1 true) comb = .next t) ∧ (∃ t, exec (.capture vP1) clocked = .next t) ∧
    (∃ t, exec .idle clocked = .next t) ∧ ∃ t, exec (.reset true) clocked = .next t :=
  ⟨⟨_, rfl⟩, ⟨_, rfl⟩, ⟨_, rfl⟩, ⟨_, rfl⟩⟩

/-- StopsOnlyOutsideItsVariant: both clauses, in both variants. -/
theorem witness_StopsOnlyOutsideItsVariant :
    (Instr.pack vP1 true).wellFormed clocked.cfg.registered = false ∧ Instr.idle.wellFormed comb.cfg.registered = false ∧
    (Instr.pack vP1 true).wellFormed comb.cfg.registered = true ∧ Instr.idle.wellFormed clocked.cfg.registered = true := by
  decide

/-- PlacedWordRuns: a word of each row. -/
theorem witness_PlacedWordRuns : decodeTableWord 64 0x1810080040302010 = some (.pack vP1 false) ∧
    decodeTableWord 8 1 = some (.capture Bundle.zero) ∧ decodeTableWord 8 0 = some .idle ∧
    decodeTableWord 8 2 = some (.reset false) := by decide

/-- RegistersFollowOperations, OnlyResetEndsPowerUp, OutputsAreTheState, ParametersNeverChange: a step with an operation
and one without. -/
theorem witness_steps :
    (losesPower (clocked.setAgenda [.edge]) = false ∧ ∃ t, step (clocked.setAgenda [.edge]) = .next t) ∧
    (losesPower (clocked.setAgenda [.readOut]) = false ∧ nextOperation (clocked.setAgenda [.readOut]) = none ∧
      ∃ t, step (clocked.setAgenda [.readOut]) = .next t) ∧
    (losesPower (clocked.setAgenda [.powerLoss]) = true ∧ ∃ t, step (clocked.setAgenda [.powerLoss]) = .next t) ∧
    ((State.powerUp ⟨.singleCycle, .be⟩).resetSeen = false ∧ ∃ t, step (State.powerUp ⟨.singleCycle, .be⟩) = .next t) :=
  ⟨⟨rfl, _, rfl⟩, ⟨rfl, rfl, _, rfl⟩, ⟨rfl, _, rfl⟩, rfl, _, rfl⟩

/-- A pixel presented at the next edge, a read after it. -/
def presenting : State := (showing clocked vP1 true false).setAgenda [.edge, .readOut]

/-- OneEdgeLatency and VariantsAgree: the pixel's edge, one quiet step after it, and the combinational variant with the
same inputs. -/
theorem witness_latency :
    presenting.cfg.registered = .singleCycle ∧ presenting.resetSeen = true ∧ presenting.agenda = .edge :: [.readOut] ∧
    presenting.ports.rst = false ∧ presenting.ports.inValid = true ∧
    (showing comb vP1 true false).cfg.registered = .combinational ∧
    (showing comb vP1 true false).ports.data = presenting.ports.data ∧
    (showing comb vP1 true false).ports.inValid = true ∧
    ∃ t u, step presenting = .next t ∧ Quiet 1 t ∧ Host.Core.run core 1 t = .next u :=
  ⟨rfl, rfl, rfl, rfl, rfl, rfl, rfl, rfl, _, _, rfl, ⟨rfl, rfl, fun _ _ => trivial⟩, rfl⟩

/-- CombinationalHasNoState: a step of the combinational variant. -/
theorem witness_CombinationalHasNoState : comb.cfg.registered = .combinational ∧ ∃ t, step comb = .next t := ⟨rfl, _, rfl⟩

/-- ConsumerTakesValidWords: a valid word, and none. -/
theorem witness_ConsumerTakesValidWords :
    (((holding 0x40302010 true).setAgenda [.readOut]).agenda = .readOut :: [] ∧
      ((holding 0x40302010 true).setAgenda [.readOut]).outValid = .ok true ∧
      ((holding 0x40302010 true).setAgenda [.readOut]).pixOut = .ok 0x40302010#32) ∧
    (clocked.setAgenda [.readOut]).agenda = .readOut :: [] ∧ (clocked.setAgenda [.readOut]).outValid = .ok false :=
  ⟨⟨rfl, rfl, rfl⟩, rfl, rfl⟩

/-- HeldResetRepeats. -/
theorem witness_HeldResetRepeats : ((showing clocked vP1 true true).setAgenda [.edge, .edge]).cfg.registered = .singleCycle ∧
    ((showing clocked vP1 true true).setAgenda [.edge, .edge]).agenda = .edge :: .edge :: [] ∧
    ((showing clocked vP1 true true).setAgenda [.edge, .edge]).ports.rst = true := by decide

/-- UnresetReadFaults: a consumer's read and a host's own, in the single-cycle variant at power-up and the combinational
one. -/
theorem witness_UnresetReadFaults :
    (((State.powerUp ⟨.singleCycle, .le⟩).setAgenda [.readOut]).cfg.registered = .singleCycle ∧
      ((State.powerUp ⟨.singleCycle, .le⟩).setAgenda [.readOut]).resetSeen = false ∧
      ((State.powerUp ⟨.singleCycle, .le⟩).setAgenda [.readOut]).agenda = .readOut :: []) ∧
    ((comb.setAgenda [.readOut]).cfg.registered = .combinational ∧ (comb.setAgenda [.readOut]).agenda = .readOut :: []) ∧
    ((inCall (State.powerUp ⟨.singleCycle, .le⟩) firstShown []).cfg.registered = .singleCycle ∧
      (inCall (State.powerUp ⟨.singleCycle, .le⟩) firstShown []).resetSeen = false) ∧
    (∀ s, (inCall s firstShown []).call = some ⟨twoStrides, firstShown⟩ ∧
      hostStride (inCall s firstShown []) = some 0) ∧
    (⟨twoStrides, firstShown⟩ : ActiveCall).phase 0 = some (.shown vP1) :=
  ⟨⟨rfl, rfl, rfl⟩, ⟨rfl, rfl⟩, ⟨rfl, rfl⟩, fun _ => ⟨rfl, rfl⟩, rfl⟩

/-- PowerLossClears: both variants. -/
theorem witness_PowerLossClears :
    ((clocked.setAgenda [.powerLoss]).agenda = .powerLoss :: [] ∧ clocked.cfg.registered = .singleCycle) ∧
    (comb.setAgenda [.powerLoss]).agenda = .powerLoss :: [] ∧ comb.cfg.registered = .combinational := by decide

/-- WordWriteByteOrder: a byte on each side of the word. MemoryReadsBackWrites: canonical memories that read the same. -/
theorem witness_memory : (0x0FFF < 0x1000 ∧ 0x1000 + 4 ≤ 0x1004) ∧ Memory.wf buf ∧
    ∀ a, Memory.read buf a = Memory.read buf a :=
  ⟨by decide, by decide, fun _ => rfl⟩

/-- StepKeepsInvariant, OnlyTheBufferIsWritten, DisjointCallsDoNotInteract (its first clause): two sound calls, one of
which moves, and an address outside both ranges. -/
theorem witness_StepKeepsInvariant : (inCall clocked firstShown []).Inv ∧
    (∃ t, step (inCall clocked firstShown []) = .next t) ∧
    (∀ v, (inCall clocked firstShown []).agenda.head? ≠ some (.otherWrite 0x100C v)) ∧
    (inCall clocked firstShown []).callCovers 0x100C = false ∧
    (inCall clocked firstShown []).callOf (.other 0) = some nextStripe.begun ∧
    mover (inCall clocked firstShown []) ≠ some (.other 0) ∧ nextStripe.covers 0x1008 = true :=
  ⟨by decide, ⟨_, rfl⟩, fun v => (by simp : none ≠ some (Event.otherWrite 0x100C v)), by decide, rfl, by decide, by decide⟩

/-- HostCallProgress: the host's call and another agent's, in progress together and soundly; one about to return; one
that starts; a stride chosen. -/
theorem witness_HostCallProgress :
    ((inCall clocked firstShown []).Inv ∧ (inCall clocked firstShown []).Progress .host buf ∧
      (inCall clocked firstShown []).Progress (.other 0) buf ∧ (inCall clocked firstShown []).callOf .host ≠ none ∧
      (inCall clocked firstShown []).callOf (.other 0) ≠ none ∧ ∃ t, step (inCall clocked firstShown []) = .next t) ∧
    (∃ s c t, s.Inv ∧ s.Progress .host [] ∧ s.callOf .host = some c ∧ step s = .next t ∧ t.callOf .host = none ∧
      s.agenda.head? ≠ some (.terminate .host)) ∧
    (∃ t, (clocked.setAgenda [.call stdCall]).callOf .host = none ∧ step (clocked.setAgenda [.call stdCall]) = .next t ∧
      t.callOf .host ≠ none) ∧
    ∃ c, (inCall clocked [(0, .unread), (1, .unread)] [.choose 1]).call = some c ∧
      (inCall clocked [(0, .unread), (1, .unread)] [.choose 1]).agenda = .choose 1 :: [] ∧ 1 ∈ c.left ∧ c.busy = false := by
  refine ⟨⟨by decide, ?_, ?_, by decide, by decide, _, rfl⟩,
    ⟨comb.setCall .host (some ⟨⟨0, 0, 0, 0, 0, 0, 0⟩, []⟩), _, _, by decide, ?_, rfl, rfl, rfl, by decide⟩,
    ⟨_, rfl, rfl, by decide⟩, _, rfl, rfl, by decide, by decide⟩
  · intro c hc
    cases hc
    refine ⟨by decide, fun e he => ?_⟩
    simp only [firstShown, List.mem_cons, List.not_mem_nil, or_false] at he
    rcases he with rfl | rfl
    · exact ⟨by decide, rfl, fun _ _ _ => by decide⟩
    · trivial
  · intro c hc
    cases hc
    refine ⟨by decide, fun e he => ?_⟩
    rw [show e = (0, .unread) by simpa [HostCall.begun, strideCount, nextStripe] using he]
    trivial
  · intro c hc
    cases hc
    exact ⟨by decide, by simp⟩

/-- CallPreconditions: a call, the host's and another agent's, one of length zero; an access at each end of the range of a
call in progress, and with no call. -/
theorem witness_CallPreconditions :
    comb.call = none ∧ (comb.setAgenda [.call stdCall]).agenda = .call stdCall :: [] ∧
    (comb.setAgenda [.otherCall stdCall]).agenda = .otherCall stdCall :: [] ∧
    (⟨0, 0, 0, 0, 0, 0, 0⟩ : HostCall).length = 0 ∧
    ((inCall comb firstShown [.otherRead 0x1000]).agenda = .otherRead 0x1000 :: [] ∧
      twoStrides ∈ (inCall comb firstShown [.otherRead 0x1000]).running) ∧
    ((inCall comb firstShown [.otherWrite 0x1007 1]).agenda = .otherWrite 0x1007 1 :: [] ∧
      twoStrides ∈ (inCall comb firstShown [.otherWrite 0x1007 1]).running) ∧
    (comb.setAgenda [.otherWrite 0x1007 1]).agenda = .otherWrite 0x1007 1 :: [] ∧ comb.running = [] := by decide

/-- StrideIsPresented: both variants, a stride to read, one to present, one that waits. -/
theorem witness_StrideIsPresented :
    (∀ s w, (inCall s w []).call = some ⟨twoStrides, w⟩) ∧
    (∀ s, hostStride (inCall s [(0, .unread), (1, .unread)] []) = some 0) ∧
    (⟨twoStrides, [(0, .unread), (1, .unread)]⟩ : ActiveCall).phase 0 = some .unread ∧
    (∀ s, hostStride (inCall s [(0, .read vP1), (1, .unread)] []) = some 0) ∧
    (⟨twoStrides, [(0, .read vP1), (1, .unread)]⟩ : ActiveCall).phase 0 = some (.read vP1) ∧
    (⟨twoStrides, [(0, .read vP1), (1, .unread)]⟩ : ActiveCall).busy = false ∧
    (∀ s, hostStride (inCall s [(0, .shown vP1), (1, .read vP2)] [.stride .host 1]) = some 1) ∧
    (⟨twoStrides, [(0, .shown vP1), (1, .read vP2)]⟩ : ActiveCall).phase 1 = some (.read vP2) ∧
    (⟨twoStrides, [(0, .shown vP1), (1, .read vP2)]⟩ : ActiveCall).busy = true ∧
    comb.cfg.registered = .combinational ∧ clocked.cfg.registered = .singleCycle :=
  ⟨fun _ _ => rfl, fun _ => rfl, rfl, fun _ => rfl, rfl, rfl, fun _ => rfl, rfl, rfl, rfl, rfl⟩

/-- StrideIsWrittenBack: both variants, a word to take and one to write. -/
theorem witness_StrideIsWrittenBack :
    (∀ s, (inCall s firstShown []).call = some ⟨twoStrides, firstShown⟩ ∧
      hostStride (inCall s firstShown []) = some 0) ∧
    (⟨twoStrides, firstShown⟩ : ActiveCall).phase 0 = some (.shown vP1) ∧
    (∃ w, (inCall comb firstShown []).outValid = .ok true ∧ (inCall comb firstShown []).pixOut = .ok w) ∧
    (∃ w, (inCall clocked firstShown []).outValid = .ok true ∧ (inCall clocked firstShown []).pixOut = .ok w) ∧
    (∀ s, (inCall s [(1, .taken 7)] []).call = some ⟨twoStrides, [(1, .taken 7)]⟩ ∧
      hostStride (inCall s [(1, .taken 7)] []) = some 1) ∧
    (⟨twoStrides, [(1, .taken 7)]⟩ : ActiveCall).phase 1 = some (.taken 7) :=
  ⟨fun _ => ⟨rfl, rfl⟩, rfl, ⟨_, rfl, rfl⟩, ⟨_, rfl, rfl⟩, fun _ => ⟨rfl, rfl⟩, rfl⟩

/-- StridesOnOtherBlocks: a stride packed at the side; a call of another agent at each of its moves. -/
theorem witness_StridesOnOtherBlocks :
    (∃ c, (inCall clocked [(0, .shown vP1), (1, .read vP2)] [.elsewhere 1]).call = some c ∧
      (inCall clocked [(0, .shown vP1), (1, .read vP2)] [.elsewhere 1]).agenda = .elsewhere 1 :: [] ∧
      c.phase 1 = some (.read vP2)) ∧
    ((inCall clocked firstShown [.stride (.other 0) 0]).callOf (.other 0) = some nextStripe.begun ∧
      (inCall clocked firstShown [.stride (.other 0) 0]).agenda = .stride (.other 0) 0 :: [] ∧
      nextStripe.begun.phase 0 = some .unread) ∧
    (∀ w : List (Nat × Phase), ((inCall clocked firstShown [.stride (.other 0) 0]).setCall (.other 0)
      (some ⟨nextStripe, w⟩)).callOf (.other 0) = some ⟨nextStripe, w⟩) ∧
    (⟨nextStripe, []⟩ : ActiveCall).work = [] ∧ (⟨nextStripe, [(0, .read vP2)]⟩ : ActiveCall).phase 0 = some (.read vP2) ∧
    (⟨nextStripe, [(0, .taken 7)]⟩ : ActiveCall).phase 0 = some (.taken 7) :=
  ⟨⟨_, rfl, rfl, rfl⟩, ⟨rfl, rfl, rfl⟩, fun _ => rfl, rfl, rfl, rfl⟩

/-- LostStrideIsPresentedAgain. -/
theorem witness_LostStrideIsPresentedAgain :
    (inCall clocked firstShown [.rstEdge, .stride .host 0, .stride .host 0]).cfg.registered = .singleCycle ∧
    (inCall clocked firstShown [.rstEdge, .stride .host 0, .stride .host 0]).agenda =
      .rstEdge :: .stride .host 0 :: .stride .host 0 :: [] ∧
    (inCall clocked firstShown [.rstEdge, .stride .host 0, .stride .host 0]).call = some ⟨twoStrides, firstShown⟩ ∧
    (⟨twoStrides, firstShown⟩ : ActiveCall).Sound ∧
    (⟨twoStrides, firstShown⟩ : ActiveCall).phase 0 = some (.shown vP1) :=
  ⟨rfl, rfl, rfl, by decide, rfl⟩

/-- ZeroLengthCall: the null address (V-B4). -/
theorem witness_ZeroLengthCall : ∃ c : HostCall, (comb.setAgenda [.call c]).call = none ∧
    (comb.setAgenda [.call c]).agenda = [.call c] ∧ c.length = 0 ∧ c.base = 0 :=
  ⟨⟨0, 0, 0, 16, 8, 0, 24⟩, rfl, rfl, rfl, rfl⟩

/-- HostPackFinalContents, OneOperationPerStride: the call of V-B2 in the single-cycle variant after a RESET, beside a call
of another agent; a stride of it, and an address on each side of the buffer. -/
theorem witness_HostPackFinalContents :
    ((clocked.addOther nextStripe.begun).setAgenda [.call stdCall]).call = none ∧
    ((clocked.addOther nextStripe.begun).setAgenda [.call stdCall]).agenda = [.call stdCall] ∧
    (∀ d ∈ ((clocked.addOther nextStripe.begun).setAgenda [.call stdCall]).running, stdCall.overlaps d = false) ∧
    stdCall.length % 4 = 0 ∧ (0 < stdCall.length → stdCall.base ≠ 0 ∧ stdCall.base % 4 = 0) ∧
    stdCall.length ≤ stdCall.cap ∧ ((clocked.addOther nextStripe.begun).setAgenda [.call stdCall]).resetSeen = true ∧
    stdCall.precheck = none ∧ 0 < stdCall.length / 4 ∧ 0x0FFF < stdCall.base ∧
    stdCall.base + stdCall.length ≤ 0x1004 := by decide

/-- StridesInAnyOrder: two strides in descending order. -/
theorem witness_StridesInAnyOrder : ([1, 0] : List Nat).Perm (List.range (strideCount ⟨0x1000, 8, 8, 16, 8, 0, 24⟩)) :=
  List.reverse_perm [0, 1]

/-- DisjointCallsDoNotInteract: two adjoining calls, their strides interleaved; an address in each and one in neither. -/
theorem witness_DisjointCallsDoNotInteract : ∃ (c d : HostCall) (ks : List (Bool × Nat)),
    (c.base + c.length ≤ d.base ∨ d.base + d.length ≤ c.base) ∧
    ((ks.filter fun k => !k.1).map Prod.snd).Perm (List.range (strideCount c)) ∧
    ((ks.filter fun k => k.1).map Prod.snd).Perm (List.range (strideCount d)) ∧
    c.covers 0x1007 = true ∧ d.covers 0x1008 = true ∧ c.covers 0x100C = false ∧ d.covers 0x100C = false :=
  ⟨⟨0x1000, 8, 8, 16, 8, 0, 24⟩, ⟨0x1008, 4, 4, 16, 8, 0, 24⟩, [(false, 1), (true, 0), (false, 0)], by decide,
    List.reverse_perm [0, 1], List.Perm.refl [0], by decide⟩

/-- StrideIndependence: the last stride of one call and the first of another, with the same four bytes. -/
theorem witness_StrideIndependence : ∃ (c c' : HostCall) (m m' : Memory),
    1 < strideCount c ∧ 0 < strideCount c' ∧ c.sr = c'.sr ∧ c.sg = c'.sg ∧ c.sb = c'.sb ∧ c.sa = c'.sa ∧
    fourBytes m (strideAddr c 1) = fourBytes m' (strideAddr c' 0) :=
  ⟨⟨0x0FFC, 8, 8, 16, 8, 0, 24⟩, stdCall, (0x0FFC, 0x99) :: buf, buf, by decide⟩

/-- StandardShiftsIdempotence: a stride that is no palindrome. -/
theorem witness_StandardShiftsIdempotence :
    stdCall.sr = 16 ∧ stdCall.sg = 8 ∧ stdCall.sb = 0 ∧ stdCall.sa = 24 ∧ 0 < strideCount stdCall ∧
    fourBytes buf (strideAddr stdCall 0) ≠ (fourBytes buf (strideAddr stdCall 0)).reverse := by decide

/-- TerminationLeavesAnyBytes: the host's call, and another agent's. -/
theorem witness_TerminationLeavesAnyBytes :
    (∃ c, (inCall comb firstShown [.terminate .host]).callOf .host = some c ∧
      (inCall comb firstShown [.terminate .host]).agenda = .terminate .host :: [] ∧
      0 < c.req.length ∧ c.req.covers 0x1008 = false) ∧
    ∃ c, (inCall comb firstShown [.terminate (.other 0)]).callOf (.other 0) = some c ∧
      (inCall comb firstShown [.terminate (.other 0)]).agenda = .terminate (.other 0) :: [] ∧
      0 < c.req.length ∧ c.req.covers 0x1007 = false :=
  ⟨⟨_, rfl, rfl, by decide, by decide⟩, _, rfl, rfl, by decide, by decide⟩

end Sys2Proof.Tests
end

section
/-! PROOF. The outputs of the combinational variant (10_state.md R21, R22). -/

namespace Sys2Proof.Machine

/-- In the combinational variant `pix_out` reads the packed data inputs; `in_valid` does not occur in it (R22). -/
theorem State.pixOut_of_combinational {s : State} (h : s.cfg.registered = .combinational) :
    s.pixOut = .ok (packWord s.ports.data) := by
  simp [State.pixOut, h]

/-- In the combinational variant `out_valid` reads `in_valid` (R21). -/
theorem State.outValid_of_combinational {s : State} (h : s.cfg.registered = .combinational) :
    s.outValid = .ok s.ports.inValid := by
  simp [State.outValid, h]

/-- Settles O18: each output reads as a function of the ports, and the word's function does not look at `in_valid`. -/
theorem combinationalOutputs : Obligations.CombinationalOutputs := by
  intro s hs
  have hpix := State.pixOut_of_combinational hs
  have hval := State.outValid_of_combinational hs
  refine ⟨hpix, hval, fun s' hs' hports => ⟨?pix, ?valid⟩, fun v => ?inValid⟩
  case pix => rw [State.pixOut_of_combinational hs', hports, hpix]
  case valid => rw [State.outValid_of_combinational hs', hports, hval]
  case inValid =>
    have hset : (s.setPorts ⟨s.ports.data, v, s.ports.rst⟩).cfg.registered = .combinational := by simpa using hs
    rw [State.pixOut_of_combinational hset, State.setPorts_ports, hpix]

end Sys2Proof.Machine
end

section
/-! PROOF. The word write in the host's byte order (20_memory.md R37). -/

namespace Sys2Proof.Machine

/-- LE puts the least significant byte at the lowest address (R37). -/
theorem wordBytes_le (w : Word) :
    wordBytes .le w = [w.extractLsb' 0 8, w.extractLsb' 8 8, w.extractLsb' 16 8, w.extractLsb' 24 8] := rfl

/-- BE puts the most significant byte at the lowest address (R37). -/
theorem wordBytes_be (w : Word) :
    wordBytes .be w = [w.extractLsb' 24 8, w.extractLsb' 16 8, w.extractLsb' 8 8, w.extractLsb' 0 8] := rfl

/-- Settles O42: the four bytes at the address read back as the word's bytes in the order of the write, and a read outside
them does not see the write. -/
theorem wordWriteByteOrder : Obligations.WordWriteByteOrder := by
  intro m addr w
  refine ⟨?le, ?be, fun order a hout => ?outside⟩
  case le => rw [fourBytes_writeWord, wordBytes_le]
  case be => rw [fourBytes_writeWord, wordBytes_be]
  case outside => exact Memory.read_writeWord_outside order m addr w hout

end Sys2Proof.Machine
end

section
/-! PROOF. The layout of the operand bundle (30_encoding.md R51). -/

namespace Sys2Proof

/-- A concatenation as a number: its first part stands above the `v` bits of its second. -/
theorem toNat_append_eq_add {u v : Nat} (x : BitVec u) (y : BitVec v) :
    (x ++ y).toNat = y.toNat + 2 ^ v * x.toNat := by
  rw [BitVec.toNat_append, ← Nat.shiftLeft_add_eq_or_of_lt y.isLt, Nat.shiftLeft_eq, Nat.mul_comm, Nat.add_comm]

/-- `OPB` as a number: the fields are its digits to the base `2 ^ 8`, in the order of R51. -/
theorem Bundle.toNat_toOpb (o : Bundle) : o.toOpb.toNat =
    o.b.toNat + 2 ^ 8 * o.g.toNat + 2 ^ 16 * o.r.toNat + 2 ^ 24 * o.a.toNat +
      2 ^ 32 * o.sb.toNat + 2 ^ 40 * o.sg.toNat + 2 ^ 48 * o.sr.toNat + 2 ^ 56 * o.sa.toNat := by
  simp only [Bundle.toOpb, toNat_append_eq_add]

/-- The cuts at the bit positions of R51 take those digits out again. -/
theorem Bundle.ofOpb_toOpb (o : Bundle) : Bundle.ofOpb o.toOpb = o := by
  obtain ⟨b, g, r, a, sb, sg, sr, sa⟩ := o
  rw [Bundle.ofOpb, Bundle.mk.injEq]
  simp only [← BitVec.toNat_inj, BitVec.extractLsb'_toNat, Nat.shiftRight_eq_div_pow, Bundle.toNat_toOpb]
  omega

/-- A 64-bit value is the number its eight cuts are the digits of. -/
theorem Bundle.toOpb_ofOpb (w : BitVec 64) : (Bundle.ofOpb w).toOpb = w := by
  apply BitVec.eq_of_toNat_eq
  simp only [Bundle.toNat_toOpb, Bundle.ofOpb, BitVec.extractLsb'_toNat, Nat.shiftRight_eq_div_pow]
  omega

/-- The low half of `OPB` keeps the four lowest digits, the source pixel's bytes (R51). -/
theorem Bundle.toNat_toOpb_low (o : Bundle) : (o.toOpb.extractLsb' 0 32).toNat =
    o.b.toNat + 2 ^ 8 * o.g.toNat + 2 ^ 16 * o.r.toNat + 2 ^ 24 * o.a.toNat := by
  rw [BitVec.extractLsb'_toNat, Bundle.toNat_toOpb]
  omega

/-- Settles O1: the fields are the cuts of `ofOpb`, which undoes `toOpb` and is undone by it; the low half is the number with
the four channels as digits. -/
theorem operandBundleLayout : Obligations.OperandBundleLayout := by
  refine ⟨fun o => ?bundle, Bundle.toOpb_ofOpb⟩
  have hfields := Bundle.ofOpb_toOpb o
  exact ⟨rfl, congrArg Bundle.b hfields, congrArg Bundle.g hfields, congrArg Bundle.r hfields,
    congrArg Bundle.a hfields, congrArg Bundle.sb hfields, congrArg Bundle.sg hfields, congrArg Bundle.sr hfields,
    congrArg Bundle.sa hfields, Bundle.toNat_toOpb_low o, hfields⟩

end Sys2Proof
end

section
/-! PROOF. The operation the inputs select, and that it always completes (30_encoding.md R55, R58). -/

namespace Sys2Proof.Machine

/-- What the block samples decodes to the operation its inputs select. -/
theorem decode_fetch (s : State) : decode s.cfg.registered (fetch s) = .ok (selected s.cfg.registered s.ports) :=
  decode_ports_frame _ _

/-- The combinational variant has one operation (R53). -/
theorem selected_combinational (p : Ports) : selected .combinational p = .pack p.data p.inValid := rfl

/-- `rst = 1`: RESET, whatever `in_valid` is (rows 1 and 2 of R55). -/
theorem selected_reset {p : Ports} (hr : p.rst = true) : selected .singleCycle p = .reset p.inValid := by
  simp [selected, selectEdge, hr]

/-- `rst = 0`, `in_valid = 1`: CAPTURE (row 3 of R55). -/
theorem selected_capture {p : Ports} (hr : p.rst = false) (hv : p.inValid = true) :
    selected .singleCycle p = .capture p.data := by
  simp [selected, selectEdge, hr, hv]

/-- `rst = 0`, `in_valid = 0`: IDLE (row 4 of R55). -/
theorem selected_idle {p : Ports} (hr : p.rst = false) (hv : p.inValid = false) : selected .singleCycle p = .idle := by
  simp [selected, selectEdge, hr, hv]

/-- Settles O2: the frame decodes to the selected operation, and each row of R55 says which that is. -/
theorem operationSelection : Obligations.OperationSelection := by
  intro s
  rw [decode_fetch]
  refine ⟨fun hc => ?pack, fun hc hr => ?reset, fun hc hr hv => ?capture, fun hc hr hv => ?idle⟩
  case pack => rw [hc, selected_combinational]
  case reset => rw [hc, selected_reset hr]
  case capture => rw [hc, selected_capture hr hv]
  case idle => rw [hc, selected_idle hr hv]

/-- An edge next on the agenda makes the step an instant of the block on its ports as they stand: it waits for no call. -/
theorem step_edge {s : State} {rest : List Event} (ha : s.agenda = .edge :: rest) :
    step s = runPorts (s.setAgenda rest) :=
  step_event ha (.inr rfl)

/-- Settles O3: the inputs always decode, and to an operation that the block's variant has, which completes. -/
theorem everyInputIsLegal : Obligations.EveryInputIsLegal := by
  intro s rest ha
  rw [step_edge ha]
  exact runPorts_completes _

end Sys2Proof.Machine
end

section
/-! PROOF. The contribution term: its bits, its field in the word, and its circuit form (40_pack_datapath.md R65 to R67). -/

namespace Sys2Proof.Machine

/-- Within the word the term shows its channel in the eight bits from the shift amount on, and 0 elsewhere (R65). -/
theorem getLsbD_contribution_of_lt (c s : Byte) {k : Nat} (hk : k < 32) :
    (contribution c s).getLsbD k = (decide (s.toNat ≤ k ∧ k ≤ s.toNat + 7) && c.getLsbD (k - s.toNat)) := by
  rw [getLsbD_contribution, decide_eq_true hk, Bool.true_and]
  by_cases hin : k ≤ s.toNat + 7
  · simp only [hin, and_true]
  · have hbeyond : c.getLsbD (k - s.toNat) = false := BitVec.getLsbD_of_ge _ _ (by omega)
    simp only [hbeyond, Bool.and_false]

/-- The same at every position, with the field cut at bit 31 (R70). -/
theorem getLsbD_contribution_eq_field (c s : Byte) (k : Nat) :
    (contribution c s).getLsbD k = (decide (fieldCovers s k) && c.getLsbD (k - s.toNat)) := by
  by_cases hk : k < 32
  · have hcut : k ≤ 31 := by omega
    simp only [getLsbD_contribution_of_lt c s hk, fieldCovers, hcut, and_true]
  · have hout : ¬ fieldCovers s k := fun h => hk (by omega)
    rw [decide_eq_false hout, BitVec.getLsbD_of_ge _ _ (by omega), Bool.false_and]

/-- A term is 0 outside its field (R66). -/
theorem getLsbD_contribution_of_not_covers {c s : Byte} {k : Nat} (h : ¬ fieldCovers s k) :
    (contribution c s).getLsbD k = false := by
  rw [getLsbD_contribution_eq_field, decide_eq_false h, Bool.false_and]

/-- A term is its channel's bit inside its field (R66). -/
theorem getLsbD_contribution_of_covers {c s : Byte} {k : Nat} (h : fieldCovers s k) :
    (contribution c s).getLsbD k = c.getLsbD (k - s.toNat) := by
  rw [getLsbD_contribution_eq_field, decide_eq_true h, Bool.true_and]

/-- As many bits from the shift amount on as fit the word hold the channel's low bits: all 8 up to amount 24, `32 - s` of
them from 25 to 31 (R66). -/
theorem extractLsb'_contribution (c s : Byte) {n : Nat} (h8 : n ≤ 8) (h32 : s.toNat + n ≤ 32) :
    (contribution c s).extractLsb' s.toNat n = c.extractLsb' 0 n := by
  apply BitVec.eq_of_getLsbD_eq
  intro i hi
  have hcovers : fieldCovers s (s.toNat + i) := by omega
  rw [BitVec.getLsbD_extractLsb', BitVec.getLsbD_extractLsb', getLsbD_contribution_of_covers hcovers,
    Nat.add_sub_cancel_left, Nat.zero_add]

/-- A shift amount of 32 or more moves the whole channel out of the word (R66). -/
theorem contribution_eq_zero {c s : Byte} (h : 32 ≤ s.toNat) : contribution c s = 0 := by
  apply BitVec.eq_of_getLsbD_eq
  intro k hk
  have hout : ¬ fieldCovers s k := by omega
  rw [getLsbD_contribution_of_not_covers hout]
  exact BitVec.getLsbD_zero.symm

/-- A shift amount of 0 leaves the channel in the low byte. -/
theorem contribution_zero_shift (c : Byte) : contribution c 0 = c.setWidth 32 := by
  have hshift : exactShift c 0 = c.toNat := Nat.mul_one _
  rw [contribution, hshift, BitVec.ofNat_toNat]

/-- `s[7:5] = 0` says that the amount is below 32 (R67). -/
theorem extractLsb'_high_eq_zero_iff (s : Byte) : s.extractLsb' 5 3 = 0#3 ↔ s.toNat < 32 := by
  rw [← BitVec.toNat_inj, BitVec.extractLsb'_toNat, Nat.shiftRight_eq_div_pow, BitVec.toNat_zero]
  omega

/-- Below 32 the amount is `s[4:0]` (R67). -/
theorem toNat_extractLsb'_low {s : Byte} (h : s.toNat < 32) : (s.extractLsb' 0 5).toNat = s.toNat := by
  rw [BitVec.extractLsb'_toNat, Nat.shiftRight_zero, Nat.mod_eq_of_lt h]

/-- The circuit form of a term: zero if `s[7:5]` is not 0, else the shift by `s[4:0]` (R67). -/
theorem contribution_eq_circuit (c s : Byte) : contribution c s =
    if s.extractLsb' 5 3 ≠ 0#3 then 0x00000000#32 else BitVec.ofNat 32 (c.toNat * 2 ^ (s.extractLsb' 0 5).toNat) := by
  split
  · next hhigh =>
    rw [ne_eq, extractLsb'_high_eq_zero_iff, not_lt] at hhigh
    exact contribution_eq_zero hhigh
  · next hlow =>
    rw [ne_eq, not_not, extractLsb'_high_eq_zero_iff] at hlow
    rw [toNat_extractLsb'_low hlow, contribution, exactShift]

/-- Settles O7: zero-extension does not change the channel's value, and the bits of the term are those of its field. -/
theorem contributionTermBits : Obligations.ContributionTermBits := by
  intro c s
  refine ⟨?shift, fun k hk => getLsbD_contribution_of_lt c s hk⟩
  rw [BitVec.toNat_setWidth_of_le (by decide), contribution, exactShift]

end Sys2Proof.Machine
end

section
/-! PROOF. The merge of the four terms (40_pack_datapath.md R68 to R73). -/

namespace Sys2Proof.Machine

/-- Two shift amounts whose fields, cut at bit 31, have no bit in common (R70). -/
abbrev FieldsDisjoint (s t : Byte) : Prop := ∀ k, ¬ (fieldCovers s k ∧ fieldCovers t k)

/-- Each bit of the word is the OR of the four terms' bits there, over the channels in the order of R64 (R68). -/
theorem getLsbD_packWord_eq_any (o : Bundle) (k : Nat) :
    (packWord o).getLsbD k = (channels o).any fun p => (contribution p.1 p.2).getLsbD k := by
  simp only [getLsbD_packWord, channels, List.any_cons, List.any_nil, Bool.or_false, Bool.or_assoc]

/-- The word is the OR of the four terms one after the other, in the order of R64. -/
theorem foldl_or_contributions (o : Bundle) :
    ((channels o).map fun p => contribution p.1 p.2).foldl (· ||| ·) 0 = packWord o := by
  simp only [channels, List.map_cons, List.map_nil, List.foldl_cons, List.foldl_nil, BitVec.zero_or, packWord,
    BitVec.ofNat_eq_ofNat]

/-- Where no other channel's field lies, the word's bit is the bit of this channel's term (R70). -/
theorem getLsbD_packWord_of_alone {o : Bundle} {pre post : List (Byte × Byte)} {p : Byte × Byte} {k : Nat}
    (hsplit : channels o = pre ++ p :: post) (halone : ∀ q ∈ pre ++ post, ¬ fieldCovers q.2 k) :
    (packWord o).getLsbD k = (contribution p.1 p.2).getLsbD k := by
  have hothers : ((pre ++ post).any fun q => (contribution q.1 q.2).getLsbD k) = false := by
    rw [List.any_eq_false]
    intro q hq
    rw [getLsbD_contribution_of_not_covers (halone q hq)]
    exact Bool.false_ne_true
  rw [getLsbD_packWord_eq_any, hsplit, List.perm_middle.any_eq, List.any_cons, hothers, Bool.or_false]

/-- With pairwise disjoint fields the word holds each channel's term in that channel's field (R70). -/
theorem getLsbD_packWord_of_disjoint {o : Bundle} (hdis : (channels o).Pairwise fun p q => FieldsDisjoint p.2 q.2)
    {p : Byte × Byte} (hp : p ∈ channels o) {k : Nat} (hk : fieldCovers p.2 k) :
    (packWord o).getLsbD k = (contribution p.1 p.2).getLsbD k := by
  obtain ⟨pre, post, hsplit⟩ := List.append_of_mem hp
  rw [hsplit, List.pairwise_middle fun h k hk => h k hk.symm, List.pairwise_cons] at hdis
  exact getLsbD_packWord_of_alone hsplit fun q hq hcovers => hdis.1 q hq k ⟨hk, hcovers⟩

/-- Settles O10: the word is the OR by definition, and so is each of its bits. -/
theorem mergeHasNoMasking : Obligations.MergeHasNoMasking :=
  fun o => ⟨rfl, getLsbD_packWord_eq_any o⟩

/-- Settles O11: OR is commutative and associative, so any order of the terms folds to the same word as that of R64. -/
theorem mergeOrderIrrelevant : Obligations.MergeOrderIrrelevant := by
  intro o ts hperm
  rw [hperm.foldl_op_eq, foldl_or_contributions]

/-- Settles O12: an alone-standing field shows its channel, disjoint fields stand alone, and in general the terms of the
fields that cover a bit are ORed there. -/
theorem channelIndependence : Obligations.ChannelIndependence := by
  intro o
  refine ⟨fun pre post p hsplit k hk halone => ?alone, fun hdis p hp k hk => getLsbD_packWord_of_disjoint hdis hp hk,
    fun k => ?overlap⟩
  case alone => rw [getLsbD_packWord_of_alone hsplit halone, getLsbD_contribution_of_covers hk]
  case overlap => simp only [getLsbD_packWord_eq_any, getLsbD_contribution_eq_field, List.any_filter]

/-- With all amounts 0 the four terms are ORed in the low byte, and the rest of the word is zero-extension (R71). -/
theorem packWord_zero_shifts (b g r a : Byte) :
    packWord ⟨b, g, r, a, 0, 0, 0, 0⟩ = (a ||| r ||| g ||| b).setWidth 32 := by
  simp only [packWord, contribution_zero_shift, BitVec.setWidth_or]

/-- A cut above the top bit of a value is zero. -/
theorem extractLsb'_eq_zero_of_le {w start : Nat} (x : BitVec w) (len : Nat) (h : w ≤ start) :
    x.extractLsb' start len = 0#len := by
  apply BitVec.eq_of_getLsbD_eq
  intro i hi
  have habove : x.getLsbD (start + i) = false := BitVec.getLsbD_of_ge _ _ (by omega)
  rw [BitVec.getLsbD_extractLsb', habove, Bool.and_false, BitVec.getLsbD_zero]

/-- Settles O13: the word is a zero-extended byte, which its cuts show. -/
theorem allShiftsZero : Obligations.AllShiftsZero := by
  refine ⟨fun b g r a => ?word, by decide⟩
  rw [packWord_zero_shifts]
  refine ⟨rfl, ?high, ?low⟩
  case high =>
    rw [BitVec.extractLsb'_setWidth_of_le (by decide)]
    exact extractLsb'_eq_zero_of_le _ _ (by decide)
  case low => rw [BitVec.extractLsb'_setWidth_of_le (by decide), BitVec.extractLsb'_eq_self]

/-- Settles O14: all four terms are zero. -/
theorem allShiftsLarge : Obligations.AllShiftsLarge := by
  intro o hb hg hr ha
  rw [packWord, contribution_eq_zero hb, contribution_eq_zero hg, contribution_eq_zero hr, contribution_eq_zero ha]
  rfl

/-- Amounts at least 8 apart give disjoint fields. -/
theorem fieldsDisjoint_of_add_le {s t : Byte} (h : t.toNat + 8 ≤ s.toNat) : FieldsDisjoint s t := by
  intro k hboth
  omega

/-- The amounts of the standard layout lie 8 apart (R73). -/
theorem standard_fields_disjoint : ([24, 16, 8, 0] : List Byte).Pairwise FieldsDisjoint :=
  List.Pairwise.imp (R := fun s t : Byte => t.toNat + 8 ≤ s.toNat) fieldsDisjoint_of_add_le (by decide)

/-- In the standard layout each channel's field alone covers its byte, so the word is the concatenation (R73). -/
theorem packWord_standard (b g r a : Byte) : packWord ⟨b, g, r, a, 0, 8, 16, 24⟩ = a ++ (r ++ (g ++ b)) := by
  have hdis : (channels ⟨b, g, r, a, 0, 8, 16, 24⟩).Pairwise fun p q => FieldsDisjoint p.2 q.2 :=
    List.pairwise_map.mp standard_fields_disjoint
  have hbit : ∀ p ∈ channels ⟨b, g, r, a, 0, 8, 16, 24⟩, ∀ k, fieldCovers p.2 k →
      (packWord ⟨b, g, r, a, 0, 8, 16, 24⟩).getLsbD k = p.1.getLsbD (k - p.2.toNat) :=
    fun p hp k hk => (getLsbD_packWord_of_disjoint hdis hp hk).trans (getLsbD_contribution_of_covers hk)
  simp only [channels, List.forall_mem_cons, fieldCovers, BitVec.ofNat_eq_ofNat, BitVec.reduceToNat] at hbit
  obtain ⟨ha, hr, hg, hb, -⟩ := hbit
  apply BitVec.eq_of_getLsbD_eq
  intro k hk
  simp only [BitVec.getLsbD_append]
  split_ifs with h24 h16 h8
  · exact hb k (by omega)
  · exact hg k (by omega)
  · exact hr k (by omega)
  · exact ha k (by omega)

/-- Settles O15: the concatenation, and the disjointness it rests on. -/
theorem standardLayout : Obligations.StandardLayout :=
  ⟨packWord_standard, standard_fields_disjoint⟩

end Sys2Proof.Machine
end

section
/-! PROOF. PACK and CAPTURE for every operand (40_pack_datapath.md R64, R66, R67, R76). -/

namespace Sys2Proof.Machine

/-- In the variant that has it, an operation completes with its effect. -/
theorem exec_eq_next_effect {i : Instr} {s : State} (h : s.cfg.registered = i.variant) : exec i s = .next (effect i s) := by
  obtain ⟨t, ht⟩ := exec_completes h
  rw [ht, (exec_next ht).2]

/-- PACK completes, and then the outputs read the word of its operands and its `in_valid` (R64). -/
theorem exec_pack_outputs (o : Bundle) (v : Bool) {s : State} (h : s.cfg.registered = .combinational) :
    ∃ t, exec (.pack o v) s = .next t ∧ t.pixOut = .ok (packWord o) ∧ t.outValid = .ok v := by
  have hcomb : (effect (.pack o v) s).cfg.registered = .combinational := h
  exact ⟨_, exec_eq_next_effect h, State.pixOut_of_combinational hcomb, State.outValid_of_combinational hcomb⟩

/-- Settles O8: the field's bits in the three ranges, and PACK's and CAPTURE's effects, which are the same for every
operand. -/
theorem shiftAmountRanges : Obligations.ShiftAmountRanges := by
  refine ⟨fun c s hs => ⟨?whole, fun k hk => ?outside⟩, fun c s hlo hhi => ⟨?cut, fun k hk => ?below⟩,
    fun c s hs => contribution_eq_zero hs, fun o v s hs => exec_eq_next_effect hs, fun o s hs => exec_eq_next_effect hs⟩
  case whole => rw [extractLsb'_contribution c s (by decide) (by omega), BitVec.extractLsb'_eq_self]
  case outside => exact getLsbD_contribution_of_not_covers (by omega)
  case cut => exact extractLsb'_contribution c s (by omega) (by omega)
  case below => exact getLsbD_contribution_of_not_covers (by omega)

/-- Settles O9: `pix_out` is the word, whose bits are the OR of the terms' bits; and each term has its circuit form. -/
theorem circuitFormAgrees : Obligations.CircuitFormAgrees := by
  refine ⟨fun o v s hs => ?bits, contribution_eq_circuit⟩
  obtain ⟨t, hexec, hpix, -⟩ := exec_pack_outputs o v hs
  refine ⟨t, packWord o, hexec, hpix, fun k hk => ?_⟩
  simp only [getLsbD_packWord_eq_any, getLsbD_contribution_of_lt _ _ hk]

/-- Settles O16: either PACK shows the word of the shared operands. -/
theorem packDependsOnOperandsAlone : Obligations.PackDependsOnOperandsAlone := by
  intro o v v' s s' hs hs'
  obtain ⟨t, hexec, hpix, -⟩ := exec_pack_outputs o v hs
  obtain ⟨t', hexec', hpix', -⟩ := exec_pack_outputs o v' hs'
  exact ⟨t, t', packWord o, hexec, hexec', hpix, hpix'⟩

/-- Settles O17: the word PACK shows is the OR of the four terms by definition, as is each term the truncated shift. -/
theorem packResult : Obligations.PackResult :=
  ⟨fun o v _ hs => exec_pack_outputs o v hs, fun _ _ => rfl, by decide⟩

end Sys2Proof.Machine
end

section
/-! PROOF. The clock-edge operations of the single-cycle variant (41_clocked_ops.md R82 to R92). -/

namespace Sys2Proof.Machine

/-! ### The outputs and the registers -/

/-- Once a RESET has come, `pix_out` of the single-cycle variant reads `pix_q` (R24). -/
theorem State.pixOut_of_resetSeen {s : State} (h : s.cfg.registered = .singleCycle) (hr : s.resetSeen = true) :
    s.pixOut = .ok s.pixQ := by
  simp [State.pixOut, h, hr]

/-- Once a RESET has come, `out_valid` of the single-cycle variant reads `vld_q` (R24). -/
theorem State.outValid_of_resetSeen {s : State} (h : s.cfg.registered = .singleCycle) (hr : s.resetSeen = true) :
    s.outValid = .ok s.vldQ := by
  simp [State.outValid, h, hr]

/-- The registers keep nothing of what they held before a write. -/
@[simp] theorem State.setRegs_setRegs (s : State) (w w' : Word) (v v' : Bool) :
    (s.setRegs w v).setRegs w' v' = s.setRegs w' v' := rfl

/-- CAPTURE does not look at the registers (R92). -/
theorem effect_capture_setRegs (o : Bundle) (s : State) (w : Word) (v : Bool) :
    effect (.capture o) (s.setRegs w v) = effect (.capture o) s :=
  State.setRegs_setRegs ..

/-- RESET does not look at the registers (R92). -/
theorem effect_reset_setRegs (i : Bool) (s : State) (w : Word) (v : Bool) :
    effect (.reset i) (s.setRegs w v) = effect (.reset i) s :=
  congrArg State.markReset (State.setRegs_setRegs ..)

/-- IDLE holds the word of `pix_q` and looks at no other register (R85, R92). -/
theorem effect_idle_setRegs (s : State) (w : Word) (v : Bool) :
    effect .idle (s.setRegs w v) = (effect .idle s).setRegs w false := by
  simp only [effect, State.setRegs_setRegs, State.setRegs_pixQ]

/-- RESET does not look at the ports (R62, R88). -/
theorem effect_reset_setPorts (i : Bool) (s : State) (p : Ports) :
    effect (.reset i) (s.setPorts p) = (effect (.reset i) s).setPorts p := rfl

/-- After a RESET both outputs may be read, and show the RESET state (R87). -/
theorem effect_reset_outputs (i : Bool) {s : State} (h : s.cfg.registered = .singleCycle) :
    (effect (.reset i) s).pixOut = .ok 0x00000000#32 ∧ (effect (.reset i) s).outValid = .ok false :=
  have hvar : (effect (.reset i) s).cfg.registered = .singleCycle := h
  ⟨State.pixOut_of_resetSeen hvar rfl, State.outValid_of_resetSeen hvar rfl⟩

/-! ### The operations -/

/-- Settles O19: CAPTURE's effect is the statement's next state, whose registers the outputs read; the example is in the
standard layout. -/
theorem captureResult : Obligations.CaptureResult := by
  refine ⟨fun o s hs => ?_, packWord_standard ..⟩
  have hexec : exec (.capture o) s = .next (effect (.capture o) s) := exec_eq_next_effect hs
  have hvar : (effect (.capture o) s).cfg.registered = .singleCycle := hs
  exact ⟨hexec, fun hr =>
    ⟨_, hexec, State.pixOut_of_resetSeen hvar hr, State.outValid_of_resetSeen hvar hr⟩⟩

/-- Settles O20: IDLE's effect writes `pix_q` back to itself, so `pix_out` reads the same word before and after. -/
theorem idleResult : Obligations.IdleResult := by
  intro s hs
  have hexec : exec .idle s = .next (effect .idle s) := exec_eq_next_effect hs
  have hvar : (effect .idle s).cfg.registered = .singleCycle := hs
  refine ⟨hexec, fun hr => ⟨_, hexec, ?_, State.outValid_of_resetSeen hvar hr⟩⟩
  rw [State.pixOut_of_resetSeen hs hr]
  exact State.pixOut_of_resetSeen hvar hr

/-- A change of the inputs with no call in progress is a step of its own, without an operation (R81). -/
theorem step_drive {s : State} {p : Ports} {rest : List Event} (hc : s.call = none) (ha : s.agenda = .drive p :: rest) :
    step s = .next ((s.setAgenda rest).setPorts p) :=
  step_event ha (.inl hc)

/-- Settles O21: RESET's effect is the same for either `in_valid`, and driving the ports performs no operation. -/
theorem resetResult : Obligations.ResetResult := by
  refine ⟨fun v s hs => ?_, fun _ _ _ hc ha => step_drive hc ha⟩
  have hexec : exec (.reset v) s = .next (effect (.reset v) s) := exec_eq_next_effect hs
  exact ⟨hexec, _, hexec, effect_reset_outputs v hs⟩

/-- Settles O24: CAPTURE and RESET have the effect they have from the other registers; IDLE's differs in the word it
holds. -/
theorem noOperationReadsState : Obligations.NoOperationReadsState := by
  intro s w v hs
  have hs' : ∀ w', (s.setRegs w' v).cfg.registered = .singleCycle := fun _ => hs
  refine ⟨fun o => ⟨_, exec_eq_next_effect hs, ?capture⟩, fun i => ⟨_, exec_eq_next_effect hs, ?reset⟩,
    _, exec_eq_next_effect hs, ?idleValid, ?idleWord⟩
  case capture => rw [exec_eq_next_effect (hs' w), effect_capture_setRegs]
  case reset => rw [exec_eq_next_effect (hs' w), effect_reset_setRegs]
  case idleValid => rw [exec_eq_next_effect (hs' s.pixQ), effect_idle_setRegs]; rfl
  case idleWord => rw [exec_eq_next_effect (hs' w), effect_idle_setRegs]

/-! ### The rising edge -/

/-- An edge completes with the effect of the operation the inputs select (R81). -/
theorem step_edge_next {s : State} {rest : List Event} (ha : s.agenda = .edge :: rest) :
    step s = .next (effect (selected s.cfg.registered s.ports) (s.setAgenda rest)) := by
  rw [step_edge ha, runPorts_eq]
  exact exec_eq_next_effect (selected_variant _ _).symm

/-- Settles O29: one case for each operation the inputs can select. -/
theorem edgeStepFunction : Obligations.EdgeStepFunction := by
  intro s rest hs ha
  refine ⟨_, step_edge_next ha, ?_⟩
  rw [hs]
  cases hr : s.ports.rst with
  | true => rw [selected_reset hr]; rfl
  | false =>
    cases hv : s.ports.inValid with
    | true => rw [selected_capture hr hv]; rfl
    | false => rw [selected_idle hr hv]; rfl

/-- An edge with `rst = 1` is a RESET, whatever the other ports show (R87, R88). -/
theorem step_edge_reset {s : State} {rest : List Event} (hs : s.cfg.registered = .singleCycle)
    (ha : s.agenda = .edge :: rest) (hr : s.ports.rst = true) :
    step s = .next (effect (.reset s.ports.inValid) (s.setAgenda rest)) := by
  rw [step_edge_next ha, hs, selected_reset hr]

/-- Settles O22: the edge is a RESET for every pixel presented, and RESET does not look at the pixel. -/
theorem resetDropsPixel : Obligations.ResetDropsPixel := by
  intro s rest hs ha hr hv
  have hstep := step_edge_reset hs ha hr
  rw [hv] at hstep
  obtain ⟨hpix, hvalid⟩ := effect_reset_outputs true (s := s.setAgenda rest) hs
  refine ⟨_, hstep, rfl, rfl, hpix, hvalid, fun o => ?_⟩
  have hstep' : step (s.setPorts ⟨o, true, true⟩) =
      .next (effect (.reset true) ((s.setAgenda rest).setPorts ⟨o, true, true⟩)) :=
    step_edge_reset (s := s.setPorts ⟨o, true, true⟩) hs ha rfl
  rw [hstep', effect_reset_setPorts]

end Sys2Proof.Machine
end

section
/-! PROOF. The laws of a host call as a function of memory (42_buffer_composition.md section 4). A call is known by the
four bytes of each stride and by the bytes outside all of them. -/

namespace Sys2Proof.Machine

/-- After a call every stride holds its own original bytes, packed, in the host's byte order (R100). -/
theorem fourBytes_hostPackMem (order : ByteOrder) (c : HostCall) (m : Memory) {k : Nat} (hk : k < strideCount c) :
    fourBytes (hostPackMem order c m) (strideAddr c k) = wordBytes order (packWord (strideBundle m c k)) :=
  (packStrides_spec order c List.nodup_range m).1 k (List.mem_range.2 hk)

/-- A call changes no byte outside its strides (R101). -/
theorem read_hostPackMem_outside (order : ByteOrder) (c : HostCall) (m : Memory) {a : Nat}
    (ha : ∀ k < strideCount c, a < strideAddr c k ∨ strideAddr c k + 4 ≤ a) :
    Memory.read (hostPackMem order c m) a = Memory.read m a :=
  (packStrides_spec order c List.nodup_range m).2 a fun k hk => ha k (List.mem_range.1 hk)

/-- A stride's bundle depends on its four bytes and the shifts alone, in whatever call it lies. -/
theorem strideBundle_eq_of_fourBytes {m m' : Memory} {c c' : HostCall} {k k' : Nat}
    (hr : c.sr = c'.sr) (hg : c.sg = c'.sg) (hb : c.sb = c'.sb) (ha : c.sa = c'.sa)
    (h : fourBytes m (strideAddr c k) = fourBytes m' (strideAddr c' k')) :
    strideBundle m c k = strideBundle m' c' k' := by
  simp only [fourBytes, List.cons.injEq] at h
  simp [strideBundle, h, hr, hg, hb, ha]

/-- Settles O58: the final bytes are those of the packed bundle, which the four bytes and the shifts determine. -/
theorem strideIndependence : Obligations.StrideIndependence := by
  intro order c c' m m' k k' hk hk' hr hg hb ha hbytes
  rw [fourBytes_hostPackMem order c m hk, fourBytes_hostPackMem order c' m' hk',
    strideBundle_eq_of_fourBytes hr hg hb ha hbytes]

/-- Memories that agree on every stride of a call and outside all of them read the same. -/
theorem read_eq_of_strides {m m' : Memory} (c : HostCall)
    (hin : ∀ k < strideCount c, fourBytes m (strideAddr c k) = fourBytes m' (strideAddr c k))
    (hout : ∀ a, (∀ k < strideCount c, a < strideAddr c k ∨ strideAddr c k + 4 ≤ a) →
      Memory.read m a = Memory.read m' a) (a : Nat) : Memory.read m a = Memory.read m' a := by
  by_cases h : ∃ k < strideCount c, strideAddr c k ≤ a ∧ a < strideAddr c k + 4
  · obtain ⟨k, hk, hlow, hhigh⟩ := h
    exact read_eq_of_fourBytes (hin k hk) hlow hhigh
  · refine hout a fun k hk => ?_
    by_contra hinside
    exact h ⟨k, hk, by omega⟩

/-- In LE the word concatenated from four bytes is written with the lowest of them first (R37). -/
theorem wordBytes_le_append (a r g b : Byte) : wordBytes .le (a ++ (r ++ (g ++ b))) = [b, g, r, a] := by
  simp only [wordBytes, List.cons.injEq, and_true]
  refine ⟨?b, ?g, ?r, ?a⟩
  case b =>
    rw [BitVec.extractLsb'_append_eq_of_add_le (by omega), BitVec.extractLsb'_append_eq_of_add_le (by omega),
      BitVec.extractLsb'_append_eq_of_add_le (by omega), BitVec.extractLsb'_eq_self]
  case g =>
    rw [BitVec.extractLsb'_append_eq_of_add_le (by omega), BitVec.extractLsb'_append_eq_of_add_le (by omega),
      BitVec.extractLsb'_append_eq_of_le (by omega), BitVec.extractLsb'_eq_self]
  case r =>
    rw [BitVec.extractLsb'_append_eq_of_add_le (by omega), BitVec.extractLsb'_append_eq_of_le (by omega),
      BitVec.extractLsb'_eq_self]
  case a => rw [BitVec.extractLsb'_append_eq_of_le (by omega), BitVec.extractLsb'_eq_self]

/-- The two byte orders are each other's reversal (R37). -/
theorem wordBytes_be_eq_reverse (w : Word) : wordBytes .be w = (wordBytes .le w).reverse := rfl

section
variable {c : HostCall} (hr : c.sr = 16) (hg : c.sg = 8) (hb : c.sb = 0) (ha : c.sa = 24)
include hr hg hb ha

/-- With the standard shifts a stride's word has, in LE, the stride's own bytes (R73). -/
theorem wordBytes_le_packWord_standard (m : Memory) (k : Nat) :
    wordBytes .le (packWord (strideBundle m c k)) = fourBytes m (strideAddr c k) := by
  simp only [strideBundle, hr, hg, hb, ha, packWord_standard, wordBytes_le_append, fourBytes]

/-- With the standard shifts a little-endian call leaves every stride as it was. -/
theorem fourBytes_hostPackMem_le_standard (m : Memory) {k : Nat} (hk : k < strideCount c) :
    fourBytes (hostPackMem .le c m) (strideAddr c k) = fourBytes m (strideAddr c k) := by
  rw [fourBytes_hostPackMem .le c m hk, wordBytes_le_packWord_standard hr hg hb ha]

/-- With the standard shifts a big-endian call reverses every stride. -/
theorem fourBytes_hostPackMem_be_standard (m : Memory) {k : Nat} (hk : k < strideCount c) :
    fourBytes (hostPackMem .be c m) (strideAddr c k) = (fourBytes m (strideAddr c k)).reverse := by
  rw [fourBytes_hostPackMem .be c m hk, wordBytes_be_eq_reverse, wordBytes_le_packWord_standard hr hg hb ha]

/-- With the standard shifts a little-endian call is the identity (R105). -/
theorem read_hostPackMem_le_standard (m : Memory) (a : Nat) :
    Memory.read (hostPackMem .le c m) a = Memory.read m a :=
  read_eq_of_strides c (fun _ hk => fourBytes_hostPackMem_le_standard hr hg hb ha m hk)
    (fun _ hout => read_hostPackMem_outside .le c m hout) a

/-- With the standard shifts two big-endian calls restore the memory (R105). -/
theorem read_hostPackMem_be_twice_standard (m : Memory) (a : Nat) :
    Memory.read (hostPackMem .be c (hostPackMem .be c m)) a = Memory.read m a := by
  refine read_eq_of_strides c (fun k hk => ?stride) (fun a hout => ?outside) a
  case stride =>
    rw [fourBytes_hostPackMem_be_standard hr hg hb ha _ hk, fourBytes_hostPackMem_be_standard hr hg hb ha m hk,
      List.reverse_reverse]
  case outside => rw [read_hostPackMem_outside .be c _ hout, read_hostPackMem_outside .be c m hout]

/-- With the standard shifts a second big-endian call changes a byte when a stride is no palindrome: were it to change
none, the first call would have left the stride, which it reversed, as it was (R105). -/
theorem hostPackMem_be_standard_not_idempotent {m : Memory} {k : Nat} (hk : k < strideCount c)
    (hpal : fourBytes m (strideAddr c k) ≠ (fourBytes m (strideAddr c k)).reverse) :
    ∃ a, Memory.read (hostPackMem .be c (hostPackMem .be c m)) a ≠ Memory.read (hostPackMem .be c m) a := by
  by_contra! hidem
  have hsame : ∀ a, Memory.read m a = Memory.read (hostPackMem .be c m) a := fun a =>
    (read_hostPackMem_be_twice_standard hr hg hb ha m a).symm.trans (hidem a)
  apply hpal
  calc fourBytes m (strideAddr c k)
      = fourBytes (hostPackMem .be c m) (strideAddr c k) := fourBytes_congr fun _ _ => hsame _
    _ = (fourBytes m (strideAddr c k)).reverse := fourBytes_hostPackMem_be_standard hr hg hb ha m hk

end

/-- Settles O59: in LE each stride's word is its own bytes, in BE their reversal, and reversing twice restores. -/
theorem standardShiftsIdempotence : Obligations.StandardShiftsIdempotence := by
  intro c m hr hg hb ha
  exact ⟨read_hostPackMem_le_standard hr hg hb ha m,
    read_hostPackMem_le_standard hr hg hb ha (hostPackMem .le c m),
    fun _ hk => fourBytes_hostPackMem_be_standard hr hg hb ha m hk,
    read_hostPackMem_be_twice_standard hr hg hb ha m,
    fun _ hk hpal => hostPackMem_be_standard_not_idempotent hr hg hb ha hk hpal⟩

end Sys2Proof.Machine
end

section
/-! PROOF. `rst` held over several edges (70_reset_and_hazards.md R125). -/

namespace Sys2Proof.Machine

/-- A RESET after a RESET changes nothing, whatever the agenda and `in_valid` of the second are: the registers hold the
RESET state already and may be read already (R87, R125). -/
theorem effect_reset_effect_reset (i j : Bool) (s : State) (es : List Event) :
    effect (.reset j) ((effect (.reset i) s).setAgenda es) = (effect (.reset i) s).setAgenda es := rfl

/-- Settles O38: either edge is a RESET, since the first leaves the ports as they stand; the second finds the RESET
state. -/
theorem heldResetRepeats : Obligations.HeldResetRepeats := by
  intro s rest hs ha hr
  obtain ⟨hpix, hvalid⟩ := effect_reset_outputs s.ports.inValid (s := s.setAgenda (.edge :: rest)) hs
  refine ⟨_, step_edge_reset hs ha hr, rfl, rfl, hpix, hvalid, ?second⟩
  case second =>
    have hsecond := step_edge_reset (s := effect (.reset s.ports.inValid) (s.setAgenda (.edge :: rest))) hs rfl hr
    rw [hsecond, effect_reset_effect_reset]

end Sys2Proof.Machine
end

section
/-! PROOF. The encodings: frames, and the words of the opcode table (30_encoding.md R51 to R61, log 6). -/

namespace Sys2Proof.Machine

/-! ### Frames -/

/-- Nine bytes decode to the operation that the ports showing them select (R53, R55). -/
theorem decode_of_length_nine (v : Variant) {f : List Byte} (hf : f.length = 9) :
    decode v f = .ok (selected v (Ports.ofFrame f)) := by
  match f, hf with
  | [ctl, b, g, r, a, sb, sg, sr, sa], _ => cases v <;> rfl

/-- A list of any other length is rejected by its length (R61). -/
theorem decode_of_length_ne_nine (v : Variant) {f : List Byte} (hf : f.length ≠ 9) :
    decode v f = .error (.frameLength f.length) := by
  unfold decode
  split
  · exact absurd rfl hf
  · rfl

/-- An operation's frame decodes to it, in the variant that has it (R57). -/
theorem decode_encode (i : Instr) : decode i.variant (encode i) = .ok i := by
  cases i with
  | pack o v => exact decode_ports_frame .combinational ⟨o, v, false⟩
  | capture o => exact decode_ports_frame .singleCycle ⟨o, true, false⟩
  | idle => exact decode_ports_frame .singleCycle ⟨Bundle.zero, false, false⟩
  | reset v => exact decode_ports_frame .singleCycle ⟨Bundle.zero, v, true⟩

/-- Settles O4: an operation is well-formed in its own variant alone, and nine bytes decode to an operation of the variant
they are decoded for. -/
theorem decodeEncodeAgree : Obligations.DecodeEncodeAgree := by
  have hround : ∀ (v : Variant) (i : Instr), i.wellFormed v = true → decode v (encode i) = .ok i := by
    intro v i hwf
    rw [(Laws.Encoding.wellFormed_iff i v).1 hwf]
    exact decode_encode i
  refine ⟨hround, fun v f hf => ?nine, fun v f hf => decode_of_length_ne_nine v hf⟩
  case nine =>
    have hwf : (selected v (Ports.ofFrame f)).wellFormed v = true :=
      (Laws.Encoding.wellFormed_iff _ v).2 (selected_variant v _).symm
    exact ⟨_, decode_of_length_nine v hf, hwf, hround v _ hwf⟩

/-! ### Words of the opcode table -/

/-- Byte `k` of a bit vector read as a number is its cut at bit `8 * k`. -/
theorem byteOf_toNat {n : Nat} (x : BitVec n) (k : Nat) : byteOf x.toNat k = x.extractLsb' (8 * k) 8 := by
  apply BitVec.eq_of_toNat_eq
  have hbase : 256 ^ k = 2 ^ (8 * k) := (Nat.pow_mul 2 8 k).symm
  rw [byteOf, BitVec.toNat_ofNat, BitVec.extractLsb'_toNat, Nat.shiftRight_eq_div_pow, hbase]

/-- The bytes of an `OPB` are those of the bundle it holds (R51). -/
theorem map_byteOf_toNat (w : BitVec 64) : (List.range 8).map (byteOf w.toNat) = (Bundle.ofOpb w).bytes := by
  simp only [funext (byteOf_toNat w)]
  rfl

/-- A word of 64 bits is the frame of PACK with `in_valid = 0` (log 6). -/
theorem tableFrame_opb (w : BitVec 64) : tableFrame 64 w.toNat = ctlByte false false :: (Bundle.ofOpb w).bytes := by
  have hframe : tableFrame 64 w.toNat = ctlByte false false :: (List.range 8).map (byteOf (w.toNat % 2 ^ 64)) := rfl
  rw [hframe, Nat.mod_eq_of_lt w.isLt, map_byteOf_toNat]

/-- A word of 72 bits is a frame as it stands: the control byte below, `OPB` above it (R51, R52). -/
theorem tableFrame_ctl (w : BitVec 64) (ctl : Byte) :
    tableFrame 72 (w ++ ctl).toNat = ctl :: (Bundle.ofOpb w).bytes := by
  have hframe : tableFrame 72 (w ++ ctl).toNat = (List.range 9).map (byteOf ((w ++ ctl).toNat % 2 ^ 72)) := rfl
  have hctl : (w ++ ctl).extractLsb' (8 * 0) 8 = ctl := by
    rw [BitVec.extractLsb'_append_eq_of_add_le (by decide)]
    exact BitVec.extractLsb'_eq_self
  have hopb : ∀ k, (w ++ ctl).extractLsb' (8 * (k + 1)) 8 = w.extractLsb' (8 * k) 8 := fun k =>
    BitVec.extractLsb'_append_eq_of_le (by omega)
  rw [hframe, Nat.mod_eq_of_lt (w ++ ctl).isLt, List.range_succ_eq_map, List.map_cons, List.map_map, byteOf_toNat, hctl]
  simp only [Function.comp_def, Nat.succ_eq_add_one, byteOf_toNat, hopb]
  rfl

/-- What a word of 72 bits decodes to: the operation `CTL` selects on the bundle above it (R55). -/
theorem decodeTableWord_ctl (w : BitVec 64) (ctl : Byte) :
    decodeTableWord 72 (w ++ ctl).toNat = some (selectEdge (ctl.getLsbD 1) (ctl.getLsbD 0) (Bundle.ofOpb w)) := by
  rw [decodeTableWord, tableFrame_ctl]
  rfl

/-- Settles O5: the word's bytes are the frame of the operation, and cutting an `OPB` gives its bundle back. -/
theorem tableWordRoundTrip : Obligations.TableWordRoundTrip := by
  refine ⟨fun o => ?pack, fun o => ?capture, fun w => decodeTableWord_ctl w _,
    fun w => ⟨decodeTableWord_ctl w _, decodeTableWord_ctl w _⟩⟩
  case pack =>
    rw [decodeTableWord, tableFrame_opb, Bundle.ofOpb_toOpb]
    rfl
  case capture =>
    rw [decodeTableWord_ctl, Bundle.ofOpb_toOpb]
    rfl

/-- Settles O6: each word is a number, and decodes by computation. -/
theorem sampleWordsDecodeRight : Obligations.SampleWordsDecodeRight := by
  unfold Obligations.SampleWordsDecodeRight
  decide

/-- A table word's frame is nine bytes long (R61). -/
theorem tableFrame_length (nbits w : Nat) : (tableFrame nbits w).length = 9 := by
  unfold tableFrame
  split
  · rw [List.length_map, List.length_range]
  · rw [List.length_cons, List.length_map, List.length_range]

/-- The operation a table word decodes to is the one that the ports showing its frame select, and the row's variant has
it. -/
theorem decodeTableWord_eq_some {nbits w : Nat} {i : Instr} (h : decodeTableWord nbits w = some i) :
    i = selected (tableVariant nbits) (Ports.ofFrame (tableFrame nbits w)) ∧ i.variant = tableVariant nbits := by
  rw [decodeTableWord, decode_of_length_nine _ (tableFrame_length nbits w)] at h
  cases h
  exact ⟨rfl, selected_variant _ _⟩

/-- The operation selected carries the bundle on the ports, if it carries one (R53, R55). -/
theorem selected_operands (v : Variant) (p : Ports) :
    p.data = (match selected v p with | .pack o _ => o | .capture o => o | .idle => p.data | .reset _ => p.data) := by
  obtain ⟨o, inValid, rst⟩ := p
  cases v with
  | combinational => rfl
  | singleCycle => cases rst <;> cases inValid <;> rfl

/-- Settles O28: placing a word puts its frame on the ports and an edge first, and that edge performs what the ports
select. -/
theorem placedWordRuns : Obligations.PlacedWordRuns := by
  intro s nbits w i hi
  obtain ⟨hsel, hvar⟩ := decodeTableWord_eq_some hi
  refine ⟨Ports.ofFrame (tableFrame nbits w), ?run, hsel ▸ selected_operands _ _⟩
  case run =>
    rw [step_edge (s := s.withFetchWord nbits w) rfl, runPorts_eq, hvar, hsel]
    rfl

end Sys2Proof.Machine
end

section
/-! PROOF. The combinational variant has no state (10_state.md section 3): every part of a step commutes with setting the
registers of the other variant. -/

namespace Sys2Proof.Machine

/-- Applied to a block of the variant that does not have it, an operation is refused (R57; log 8). -/
theorem exec_eq_refused {i : Instr} {s : State} (h : s.cfg.registered ≠ i.variant) :
    exec i s = .refused .notInVariant := by
  cases i <;> exact if_neg h

/-- Setting the registers commutes with every change of a call. -/
theorem State.withRegs_setCall (s : State) (w : Word) (v r : Bool) (who : Caller) (c : Option ActiveCall) :
    (s.withRegs w v r).setCall who c = (s.setCall who c).withRegs w v r := by
  cases who <;> rfl

theorem State.withRegs_callOf (s : State) (w : Word) (v r : Bool) (who : Caller) :
    (s.withRegs w v r).callOf who = s.callOf who := by
  cases who <;> rfl

/-- Set to what they hold, the registers stay. -/
theorem State.withRegs_self (s : State) : s.withRegs s.pixQ s.vldQ s.resetSeen = s := rfl

theorem packElsewhere_withRegs (who : Caller) (c : ActiveCall) (k : Nat) (o : Bundle) (s : State) (w : Word)
    (v r : Bool) : packElsewhere who c k o (s.withRegs w v r) = (packElsewhere who c k o s).withRegs w v r :=
  State.withRegs_setCall ..

theorem writeStride_withRegs (who : Caller) (c : ActiveCall) (k : Nat) (x : Word) (s : State) (w : Word) (v r : Bool) :
    writeStride who c k x (s.withRegs w v r) = (writeStride who c k x s).withRegs w v r :=
  State.withRegs_setCall (s.setMem _) ..

theorem besideStride_withRegs (c : ActiveCall) (k : Nat) (s : State) (w : Word) (v r : Bool) :
    besideStride c k (s.withRegs w v r) = (besideStride c k s).withRegs w v r := by
  unfold besideStride
  split
  · exact packElsewhere_withRegs ..
  all_goals rfl

theorem terminateCall_withRegs (who : Caller) (s : State) (w : Word) (v r : Bool) :
    terminateCall who (s.withRegs w v r) = (terminateCall who s).withRegs w v r := by
  unfold terminateCall
  rw [State.withRegs_callOf]
  cases s.callOf who with
  | none => rfl
  | some c => cases who <;> rfl

theorem startCall_withRegs (c : HostCall) (s : State) (w : Word) (v r : Bool) :
    startCall c (s.withRegs w v r) = mapNext (fun t => t.withRegs w v r) (startCall c s) := by
  have hturns : (s.withRegs w v r).turnsAway c = s.turnsAway c := rfl
  unfold startCall
  rw [hturns]
  cases s.turnsAway c <;> rfl

theorem startOther_withRegs (c : HostCall) (s : State) (w : Word) (v r : Bool) :
    startOther c (s.withRegs w v r) = mapNext (fun t => t.withRegs w v r) (startOther c s) := by
  have hturns : (s.withRegs w v r).turnsAway c = s.turnsAway c := rfl
  unfold startOther
  rw [hturns]
  cases s.turnsAway c <;> rfl

theorem otherAccess_withRegs (a : Nat) (s t : State) (w : Word) (v r : Bool) :
    otherAccess a (s.withRegs w v r) (t.withRegs w v r) = mapNext (fun t => t.withRegs w v r) (otherAccess a s t) := by
  have hcovers : (s.withRegs w v r).callCovers a = s.callCovers a := rfl
  unfold otherAccess
  rw [hcovers]
  cases s.callCovers a <;> rfl

section
variable {s : State} (h : s.cfg.registered = .combinational) (w : Word) (v r : Bool)
include h

theorem pixOut_withRegs : (s.withRegs w v r).pixOut = s.pixOut := by
  rw [State.pixOut_of_combinational h]
  exact State.pixOut_of_combinational h

theorem outValid_withRegs : (s.withRegs w v r).outValid = s.outValid := by
  rw [State.outValid_of_combinational h]
  exact State.outValid_of_combinational h

/-- PACK touches the ports alone, and the variant has no other operation (R57). -/
theorem exec_withRegs (i : Instr) :
    exec i (s.withRegs w v r) = mapNext (fun t => t.withRegs w v r) (exec i s) := by
  have h' : (s.withRegs w v r).cfg.registered = .combinational := h
  by_cases hi : i.variant = .combinational
  · rw [exec_eq_next_effect (h.trans hi.symm), exec_eq_next_effect (h'.trans hi.symm)]
    cases i with
    | pack o u => rfl
    | _ => cases hi
  · rw [exec_eq_refused fun e => hi (e.symm.trans h), exec_eq_refused fun e => hi (e.symm.trans h')]
    rfl

theorem runPorts_withRegs : runPorts (s.withRegs w v r) = mapNext (fun t => t.withRegs w v r) (runPorts s) := by
  rw [runPorts_eq, runPorts_eq]
  exact exec_withRegs h w v r _

theorem readOutputs_withRegs : readOutputs (s.withRegs w v r) = mapNext (fun t => t.withRegs w v r) (readOutputs s) := by
  unfold readOutputs
  rw [pixOut_withRegs h, outValid_withRegs h, State.pixOut_of_combinational h, State.outValid_of_combinational h]
  cases s.ports.inValid <;> rfl

theorem showStride_withRegs (c : ActiveCall) (k : Nat) (o : Bundle) :
    showStride c k o (s.withRegs w v r) = mapNext (fun t => t.withRegs w v r) (showStride c k o s) := by
  have hrun : runPorts ((s.withRegs w v r).setPorts ⟨o, true, false⟩) =
      mapNext (fun t => t.withRegs w v r) (runPorts (s.setPorts ⟨o, true, false⟩)) :=
    runPorts_withRegs (s := s.setPorts ⟨o, true, false⟩) h w v r
  unfold showStride
  rw [hrun]
  split
  · rfl
  · cases runPorts (s.setPorts ⟨o, true, false⟩) <;> rfl

theorem takeStride_withRegs (c : ActiveCall) (k : Nat) (o : Bundle) :
    takeStride c k o (s.withRegs w v r) = mapNext (fun t => t.withRegs w v r) (takeStride c k o s) := by
  unfold takeStride
  rw [pixOut_withRegs h, outValid_withRegs h, State.pixOut_of_combinational h, State.outValid_of_combinational h]
  cases s.ports.inValid <;> rfl

theorem moveStride_withRegs (who : Caller) (c : ActiveCall) (k : Nat) :
    moveStride who c k (s.withRegs w v r) = mapNext (fun t => t.withRegs w v r) (moveStride who c k s) := by
  unfold moveStride
  cases c.phase k with
  | none => rfl
  | some p =>
    cases p with
    | unread => exact congrArg Host.Outcome.next (State.withRegs_setCall ..)
    | taken x => exact congrArg Host.Outcome.next (writeStride_withRegs ..)
    | read o =>
      cases who with
      | host => exact showStride_withRegs h w v r c k o
      | other n => exact congrArg Host.Outcome.next (packElsewhere_withRegs ..)
    | shown o =>
      cases who with
      | host => exact takeStride_withRegs h w v r c k o
      | other n => exact congrArg Host.Outcome.next (packElsewhere_withRegs ..)

theorem callMove_withRegs (who : Caller) (c : ActiveCall) (k : Nat) :
    callMove who c k (s.withRegs w v r) = mapNext (fun t => t.withRegs w v r) (callMove who c k s) := by
  unfold callMove
  cases c.work with
  | nil => exact congrArg Host.Outcome.next (State.withRegs_setCall ..)
  | cons _ _ => exact moveStride_withRegs h w v r who c k

theorem hostMove_withRegs (c : ActiveCall) :
    hostMove c (s.withRegs w v r) = mapNext (fun t => t.withRegs w v r) (hostMove c s) := by
  unfold hostMove
  cases c.next with
  | none => rfl
  | some k => exact moveStride_withRegs h w v r .host c k

/-- No event sees the registers, a loss of power included: it has nothing to lose here (R29). -/
theorem handle_withRegs (e : Event) :
    handle e (s.withRegs w v r) = mapNext (fun t => t.withRegs w v r) (handle e s) := by
  have hcall : (s.withRegs w v r).call = s.call := rfl
  cases e with
  | drive p => rfl
  | edge => exact runPorts_withRegs h w v r
  | rstEdge => exact exec_withRegs h w v r (.reset s.ports.inValid)
  | readOut => exact readOutputs_withRegs h w v r
  | call c => exact startCall_withRegs ..
  | host =>
    simp only [handle, hcall]
    cases s.call with
    | none => rfl
    | some c => exact hostMove_withRegs h w v r c
  | choose k => rfl
  | otherCall c => exact startOther_withRegs ..
  | stride who k =>
    simp only [handle, State.withRegs_callOf]
    cases s.callOf who with
    | none => rfl
    | some c => exact callMove_withRegs h w v r who c k
  | elsewhere k =>
    simp only [handle, hcall]
    cases s.call with
    | none => rfl
    | some c => exact congrArg Host.Outcome.next (besideStride_withRegs ..)
  | otherRead a => exact otherAccess_withRegs ..
  | otherWrite a x => exact otherAccess_withRegs a s (s.setMem (Memory.write s.mem a x)) w v r
  | terminate who => exact congrArg Host.Outcome.next (terminateCall_withRegs ..)
  | powerLoss =>
    have h' : (s.withRegs w v r).cfg.registered = .combinational := h
    simp only [handle, mapNext, State.losePower_combinational _ h, State.losePower_combinational _ h']

theorem step_withRegs : step (s.withRegs w v r) = mapNext (fun t => t.withRegs w v r) (step s) := by
  have hagenda : (s.withRegs w v r).agenda = s.agenda := rfl
  have hcall : (s.withRegs w v r).call = s.call := rfl
  have handled : ∀ e rest, handle e ((s.withRegs w v r).setAgenda rest) =
      mapNext (fun t => t.withRegs w v r) (handle e (s.setAgenda rest)) := fun e rest =>
    handle_withRegs (s := s.setAgenda rest) h w v r e
  unfold step advance
  rw [hagenda, hcall]
  cases s.agenda with
  | nil =>
    cases s.call with
    | none => exact runPorts_withRegs h w v r
    | some c => exact hostMove_withRegs h w v r c
  | cons e rest =>
    cases s.call with
    | none => exact handled e rest
    | some c =>
      cases hw : e.waits with
      | true => simpa only [hw, if_true] using hostMove_withRegs h w v r c
      | false => simpa only [hw, Bool.false_eq_true, if_false] using handled e rest

/-- No step changes the registers: the step from a state with the registers it has already leaves exactly those. -/
theorem step_keeps_registers {t : State} (ht : step s = .next t) : SameBlock s t := by
  have hself := step_withRegs h s.pixQ s.vldQ s.resetSeen
  rw [State.withRegs_self, ht] at hself
  have heq : t = t.withRegs s.pixQ s.vldQ s.resetSeen := Host.Outcome.next.inj hself
  exact ⟨(congrArg State.pixQ heq :), (congrArg State.vldQ heq :), (congrArg State.resetSeen heq :)⟩

end

/-- Settles O34: a step commutes with setting the registers, and the outputs read the ports alone. -/
theorem combinationalHasNoState : Obligations.CombinationalHasNoState := by
  intro s w v r h
  exact ⟨step_withRegs h w v r, pixOut_withRegs h w v r, outValid_withRegs h w v r, fun _ ht => step_keeps_registers h ht⟩

end Sys2Proof.Machine
end

section
/-! PROOF. The calls in progress and host memory over one step (20_memory.md sections 3 and 4, 42_buffer_composition.md
sections 3 and 4). -/

namespace Sys2Proof.Machine

/-- What one step does to the calls in progress and to memory. -/
inductive CallsChange (s t : State) : Prop where
  | same (hcalls : ∀ w, t.callOf w = s.callOf w) (hmem : t.mem = s.mem)
  | moved (who : Caller) (c : ActiveCall) (d : Option ActiveCall) (hc : s.callOf who = some c)
      (hmover : mover s = some who) (hcalls : ∀ w, t.callOf w = if w = who then d else s.callOf w)
      (hd : ∀ c' ∈ d, c'.req = c.req ∧ (c.Sound → c'.Sound) ∧ (who ≠ .host → c.busy = false → c'.busy = false))
      (hreturn : d = none → c.work = [])
      (hmem : t.mem = s.mem ∨ ∃ k x, c.phase k = some (.taken x) ∧
        t.mem = Memory.writeWord s.cfg.hostByteOrder s.mem (strideAddr c.req k) x)
  | begun (who : Caller) (c : HostCall) (hnone : s.callOf who = none) (hturns : s.turnsAway c = none)
      (hcalls : ∀ w, t.callOf w = if w = who then some c.begun else s.callOf w) (hmem : t.mem = s.mem)
  | wrote (a : Nat) (v : Byte) (hhead : s.agenda.head? = some (.otherWrite a v)) (hcover : s.callCovers a = false)
      (hcalls : ∀ w, t.callOf w = s.callOf w) (hmem : t.mem = Memory.write s.mem a v)
  | ended (who : Caller) (c : ActiveCall) (vs : List Byte) (hc : s.callOf who = some c)
      (hhead : s.agenda.head? = some (.terminate who))
      (hlen : vs.length = c.req.length) (hcalls : ∀ w, t.callOf w = if w = who then none else s.callOf w)
      (hmem : t.mem = Memory.writeBytes s.mem c.req.base vs)

/-- A termination is a move of the call it ends. -/
theorem mover_of_terminate {s : State} {who : Caller} (h : s.agenda.head? = some (.terminate who)) :
    mover s = some who := by
  obtain ⟨rest, ha⟩ := List.head?_eq_some_iff.1 h
  simp [mover, ha]

/-- The host's call set, whether or not one was in progress. -/
theorem State.callOf_setCall_host (s : State) (w : Caller) (c : Option ActiveCall) :
    (s.setCall .host c).callOf w = if w = .host then c else s.callOf w := by
  cases w <;> rfl

/-- The number that the next call of another agent gets is free. -/
theorem State.callOf_length_others (s : State) : s.callOf (.other s.others.length) = none := by
  simp [State.callOf]

/-- An event that is neither an operation nor a move of a call begins a call, ends one, writes a byte outside all of them,
or leaves calls and memory alone. -/
theorem EventEffect.callsChange {e : Event} {rest : List Event} {s t : State} (ha : s.agenda = e :: rest)
    (hw : s.call = none ∨ e.waits = false) (h : EventEffect (s.setAgenda rest) t e) : CallsChange s t := by
  cases h with
  | drive p ht => subst ht; exact .same (fun _ => rfl) rfl
  | readOut h =>
    rcases readOutputs_next h with ⟨-, rfl⟩ | ⟨w, -, -, rfl⟩
    · exact .same (fun _ => rfl) rfl
    · exact .same (fun _ => rfl) rfl
  | call c h =>
    obtain ⟨hturns, rfl⟩ := startCall_next h
    exact .begun .host c (by simpa [Event.waits] using hw) hturns (State.callOf_setCall_host _ · _) rfl
  | otherCall c h =>
    obtain ⟨hturns, rfl⟩ := startOther_next h
    exact .begun (.other s.others.length) c s.callOf_length_others hturns (State.callOf_addOther _ · _) rfl
  | otherRead a hc ht => subst ht; exact .same (fun _ => rfl) rfl
  | otherWrite a v hc ht => subst ht; exact .wrote a v (by rw [ha]; rfl) hc (fun _ => rfl) rfl
  | terminate who ht =>
    subst ht
    rcases terminateCall_cases who (s.setAgenda rest) with ⟨-, heq⟩ | ⟨c, vs, hc, hlen, heq⟩
    · rw [heq]; exact .same (fun _ => rfl) rfl
    · rw [heq]
      refine .ended who c vs hc (by rw [ha]; rfl) hlen (fun w => ?_) (by simp)
      exact State.callOf_setCall ((s.setAgenda rest).setMem _) who w none (by simpa using hc ▸ Option.some_ne_none c)
  | powerLoss ht => subst ht; exact .same (fun w => State.losePower_callOf _ w) (State.losePower_mem _)
  | idle _ _ ht => subst ht; exact .same (fun _ => rfl) rfl

/-- Every step changes calls and memory in one of these ways. -/
theorem step_callsChange {s t : State} (h : step s = .next t) : CallsChange s t := by
  cases step_next h with
  | operation i es _ _ _ h => exact .same (fun w => exec_callOf h w) (exec_keeps h).2.1
  | call who c es hc hmover _ h =>
    obtain ⟨d, hcalls, hd, hreturn, hmem⟩ := h.spec hc
    exact .moved who c d hc hmover hcalls hd hreturn (hmem.imp_right fun ⟨k, x, hx, _, hm⟩ => ⟨k, x, hx, hm⟩)
  | event e rest ha hw _ h => exact h.callsChange ha hw

/-! ### The invariant -/

theorem State.Inv.sound {s : State} (hs : s.Inv) {who : Caller} {c : ActiveCall} (hc : s.callOf who = some c) : c.Sound :=
  ((s.inv_iff.1 hs).2.1 who c hc).1

/-- Another agent's call has no stride on this block. -/
theorem State.Inv.not_busy {s : State} (hs : s.Inv) {who : Caller} {c : ActiveCall} (hc : s.callOf who = some c)
    (hw : who ≠ .host) : c.busy = false :=
  ((s.inv_iff.1 hs).2.1 who c hc).2 hw

theorem State.Inv.disjoint {s : State} (hs : s.Inv) {w w' : Caller} {c d : ActiveCall} (hne : w ≠ w')
    (hc : s.callOf w = some c) (hd : s.callOf w' = some d) : c.req.overlaps d.req = false :=
  (s.inv_iff.1 hs).2.2 w w' c d hne hc hd

/-- The invariant passes on to a state each of whose calls is as sound as the same caller's call was. -/
theorem State.Inv.of_calls {s t : State} (hs : s.Inv) (hwf : Memory.wf t.mem)
    (hcalls : ∀ w d, t.callOf w = some d → ∃ c, s.callOf w = some c ∧ d.req = c.req ∧ (c.Sound → d.Sound) ∧
      (w ≠ .host → c.busy = false → d.busy = false)) : t.Inv := by
  refine t.inv_iff.2 ⟨hwf, fun w d hd => ?sound, fun w w' d d' hne hd hd' => ?disjoint⟩
  case sound =>
    obtain ⟨c, hc, -, hkeep, hfree⟩ := hcalls w d hd
    exact ⟨hkeep (hs.sound hc), fun hw => hfree hw (hs.not_busy hc hw)⟩
  case disjoint =>
    obtain ⟨c, hc, hreq, -⟩ := hcalls w d hd
    obtain ⟨c', hc', hreq', -⟩ := hcalls w' d' hd'
    rw [hreq, hreq']
    exact hs.disjoint hne hc hc'

/-- A call that begins overlaps no call in progress. -/
theorem overlaps_of_turnsAway {s : State} {c : HostCall} (h : s.turnsAway c = none) {w : Caller} {d : ActiveCall}
    (hd : s.callOf w = some d) : c.overlaps d.req = false :=
  (turnsAway_eq_none.1 h).2 d.req ((s.mem_running d.req).2 ⟨w, d, hd, rfl⟩)

/-- The invariant passes on to a state in which one more call has begun. -/
theorem State.Inv.of_begun {s t : State} (hs : s.Inv) {who : Caller} {c : HostCall} (hturns : s.turnsAway c = none)
    (hcalls : ∀ w, t.callOf w = if w = who then some c.begun else s.callOf w) (hmem : t.mem = s.mem) : t.Inv := by
  obtain ⟨hbegun, hfree⟩ := HostCall.begun_sound (turnsAway_eq_none.1 hturns).1
  have hcases : ∀ w d, t.callOf w = some d → (w = who ∧ d = c.begun) ∨ s.callOf w = some d := by
    intro w d hd
    rw [hcalls] at hd
    split at hd
    · next hw => exact .inl ⟨hw, (Option.some.inj hd).symm⟩
    · exact .inr hd
  refine t.inv_iff.2 ⟨hmem ▸ hs.1, fun w d hd => ?sound, fun w w' d d' hne hd hd' => ?disjoint⟩
  case sound =>
    rcases hcases w d hd with ⟨-, rfl⟩ | hd
    · exact ⟨hbegun, fun _ => hfree⟩
    · exact ⟨hs.sound hd, hs.not_busy hd⟩
  case disjoint =>
    rcases hcases w d hd with ⟨rfl, rfl⟩ | hd
    · rcases hcases w' d' hd' with ⟨rfl, -⟩ | hd'
      · exact absurd rfl hne
      · exact overlaps_of_turnsAway hturns hd'
    · rcases hcases w' d' hd' with ⟨-, rfl⟩ | hd'
      · rw [HostCall.overlaps_comm]
        exact overlaps_of_turnsAway hturns hd
      · exact hs.disjoint hne hd hd'

/-- Settles O45: a call that moves stays sound and in its range, one that begins was checked against all others, and every
write keeps memory canonical. -/
theorem stepKeepsInvariant : Obligations.StepKeepsInvariant := by
  intro s t hs h
  have hwf : Memory.wf s.mem := hs.1
  have kept : ∀ w d, s.callOf w = some d → ∃ c, s.callOf w = some c ∧ d.req = c.req ∧ (c.Sound → d.Sound) ∧
      (w ≠ .host → c.busy = false → d.busy = false) := fun _ d hd => ⟨d, hd, rfl, id, fun _ => id⟩
  cases step_callsChange h with
  | same hcalls hmem => exact hs.of_calls (hmem ▸ hwf) fun w d hd => kept w d (hcalls w ▸ hd)
  | moved who c d hc _ hcalls hd _ hmem =>
    refine hs.of_calls ?wf fun w d' hd' => ?call
    case wf =>
      rcases hmem with hmem | ⟨k, x, -, hmem⟩
      · exact hmem ▸ hwf
      · exact hmem ▸ Memory.wf_writeWord hwf ..
    case call =>
      rw [hcalls] at hd'
      split at hd'
      · next hw => subst hw; exact ⟨c, hc, hd d' hd'⟩
      · exact kept w d' hd'
  | begun _ _ _ hturns hcalls hmem => exact hs.of_begun hturns hcalls hmem
  | wrote a v _ _ hcalls hmem =>
    exact hs.of_calls (hmem ▸ Memory.wf_write hwf a v) fun w d hd => kept w d (hcalls w ▸ hd)
  | ended who _ vs _ _ _ hcalls hmem =>
    refine hs.of_calls (hmem ▸ Memory.wf_writeBytes hwf _ vs) fun w d hd => ?_
    rw [hcalls] at hd
    split at hd
    · cases hd
    · exact kept w d hd

/-- Settles O44: there is no call, and a memory that lists nothing is canonical. -/
theorem resetMeetsInvariant : Obligations.ResetMeetsInvariant := by
  have hreset : ∀ cfg, (State.resetOf cfg).Inv := fun cfg =>
    ⟨Memory.wf_nil, fun _ hc => absurd hc (Option.not_mem_none _), fun _ ho => absurd ho List.not_mem_nil,
      fun _ hc => absurd hc (Option.not_mem_none _), List.Pairwise.nil⟩
  refine ⟨hreset _, fun cfg => ⟨hreset cfg, (hreset cfg).of_calls ?wf fun w d hd => ?calls⟩⟩
  case wf =>
    rw [State.powerUp, State.losePower_mem]
    exact Memory.wf_nil
  case calls =>
    rw [State.powerUp, State.losePower_callOf] at hd
    exact ⟨d, hd, rfl, id, fun _ => id⟩

/-! ### Which bytes and calls a step leaves alone -/

/-- A byte that one step changes was written by an agent outside every call, or lies in the range of the call that the
step moves or ends. -/
theorem step_read_cases {s t : State} (hs : s.Inv) (h : step s = .next t) (a : Nat) :
    Memory.read t.mem a = Memory.read s.mem a ∨
    (∃ v, s.agenda.head? = some (.otherWrite a v) ∧ s.callCovers a = false) ∨
    ∃ who c, mover s = some who ∧ s.callOf who = some c ∧ c.req.covers a = true := by
  cases step_callsChange h with
  | same _ hmem => exact .inl (by rw [hmem])
  | begun _ _ _ _ _ hmem => exact .inl (by rw [hmem])
  | moved who c d hc hmover _ _ _ hmem =>
    rcases hmem with hmem | ⟨k, x, hk, hmem⟩
    · exact .inl (by rw [hmem])
    · by_cases hin : strideAddr c.req k ≤ a ∧ a < strideAddr c.req k + 4
      · have hleft : k ∈ c.left := (c.phase_isSome k).1 (by rw [hk]; rfl)
        obtain ⟨-, -, hstride, -⟩ := hs.sound hc
        exact .inr (.inr ⟨who, c, hmover, hc, HostCall.covers_stride (hstride k hleft) hin.1 hin.2⟩)
      · exact .inl (by rw [hmem, Memory.read_writeWord_outside _ _ _ _ (by omega)])
  | wrote b v hhead hcover _ hmem =>
    by_cases hb : b = a
    · exact .inr (.inl ⟨v, hb ▸ hhead, hb ▸ hcover⟩)
    · exact .inl (by rw [hmem, Memory.read_write, if_neg hb])
  | ended who c vs hc hhead hlen _ hmem =>
    by_cases hin : c.req.covers a = true
    · exact .inr (.inr ⟨who, c, mover_of_terminate hhead, hc, hin⟩)
    · refine .inl ?_
      rw [hmem, Memory.read_writeBytes, dif_neg]
      simpa [HostCall.covers, hlen] using hin

/-- A step that is no move of a call leaves it as it is. -/
theorem step_callOf {s t : State} (h : step s = .next t) {who : Caller} (hcall : s.callOf who ≠ none)
    (hmover : mover s ≠ some who) : t.callOf who = s.callOf who := by
  cases step_callsChange h with
  | same hcalls _ => exact hcalls who
  | wrote _ _ _ _ hcalls _ => exact hcalls who
  | moved who' _ _ _ hm hcalls _ _ _ => rw [hcalls, if_neg fun e : who = who' => hmover (e ▸ hm)]
  | begun who' _ hnone _ hcalls _ => rw [hcalls, if_neg fun e : who = who' => hcall (e ▸ hnone)]
  | ended who' _ _ _ hhead _ hcalls _ => rw [hcalls, if_neg fun e : who = who' => hmover (e ▸ mover_of_terminate hhead)]

/-- The range of a call in progress is covered. -/
theorem callCovers_of_callOf {s : State} {who : Caller} {c : ActiveCall} (hc : s.callOf who = some c) {a : Nat}
    (ha : c.req.covers a = true) : s.callCovers a = true :=
  List.any_eq_true.2 ⟨c.req, (s.mem_running c.req).2 ⟨who, c, hc, rfl⟩, ha⟩

/-- A step that is no move of a call leaves every byte of its range as it is, since no other call covers the byte. -/
theorem step_read_of_covers {s t : State} (hs : s.Inv) (h : step s = .next t) {who : Caller} {c : ActiveCall}
    (hc : s.callOf who = some c) (hmover : mover s ≠ some who) {a : Nat} (ha : c.req.covers a = true) :
    Memory.read t.mem a = Memory.read s.mem a := by
  rcases step_read_cases hs h a with hsame | ⟨-, -, hcover⟩ | ⟨who', c', hm, hc', ha'⟩
  · exact hsame
  · exact absurd (callCovers_of_callOf hc ha) (by rw [hcover]; exact Bool.false_ne_true)
  · have hne : who ≠ who' := fun e => hmover (e ▸ hm)
    have hdisjoint := HostCall.overlaps_eq_false.1 (hs.disjoint hne hc hc') a ha
    exact absurd ha' (by rw [hdisjoint]; exact Bool.false_ne_true)

/-- Settles O55: a byte that changes was written from outside, or is covered by a call in progress. -/
theorem onlyTheBufferIsWritten : Obligations.OnlyTheBufferIsWritten := by
  intro s t a hs h hhead hcover
  rcases step_read_cases hs h a with hsame | ⟨v, hv, -⟩ | ⟨who, c, -, hc, ha⟩
  · exact hsame
  · exact absurd hv (hhead v)
  · exact absurd (callCovers_of_callOf hc ha) (by rw [hcover]; exact Bool.false_ne_true)

end Sys2Proof.Machine
end

section
/-! PROOF. Orders and interleavings of strides, calls on disjoint ranges, and termination (42_buffer_composition.md
section 4). -/

namespace Sys2Proof.Machine

/-- Every order of a call's strides leaves the memory that the ascending loop leaves. -/
theorem read_packStrides_of_perm (order : ByteOrder) (c : HostCall) (m : Memory) {ks : List Nat}
    (hperm : ks.Perm (List.range (strideCount c))) (a : Nat) :
    Memory.read (packStrides order c m ks) a = Memory.read (hostPackMem order c m) a := by
  obtain ⟨hin, hout⟩ := packStrides_spec order c (hperm.nodup_iff.2 List.nodup_range) m
  have hmem : ∀ k, k ∈ ks ↔ k < strideCount c := fun k => hperm.mem_iff.trans List.mem_range
  refine read_eq_of_strides c (fun k hk => ?stride) (fun a ha => ?outside) a
  case stride => rw [hin k ((hmem k).2 hk), fourBytes_hostPackMem order c m hk]
  case outside => rw [hout a fun k hk => ha k ((hmem k).1 hk), read_hostPackMem_outside order c m ha]

/-- Settles O56: each stride depends on its own bytes alone, so their order does not matter. -/
theorem stridesInAnyOrder : Obligations.StridesInAnyOrder :=
  fun order c m _ hperm => read_packStrides_of_perm order c m hperm

/-! ### Two calls interleaved -/

/-- Two memories read the same in the range of a call. -/
def AgreeOn (c : HostCall) (m m' : Memory) : Prop := ∀ a, c.covers a = true → Memory.read m a = Memory.read m' a

/-- The call of a pair that a stride of an interleaving belongs to. -/
def callOfTwo (c d : HostCall) (second : Bool) : HostCall := if second then d else c

theorem packTwo_cons (order : ByteOrder) (c d : HostCall) (m : Memory) (k : Bool × Nat) (ks : List (Bool × Nat)) :
    packTwo order c d m (k :: ks) = packTwo order c d (packStride order (callOfTwo c d k.1) m k.2) ks := rfl

/-- A call's stride packed in memories that agree on its range leaves them so: its word comes from that range. -/
theorem AgreeOn.packStride {c : HostCall} {m m' : Memory} (h : AgreeOn c m m') (order : ByteOrder) {k : Nat}
    (hk : k < strideCount c) : AgreeOn c (packStride order c m k) (packStride order c m' k) := by
  intro a ha
  have hbundle : strideBundle m c k = strideBundle m' c k := strideBundle_congr <|
    fourBytes_congr fun j hj => h _ (HostCall.covers_stride hk (Nat.le_add_right _ _) (Nat.add_lt_add_left hj _))
  by_cases hin : strideAddr c k ≤ a ∧ a < strideAddr c k + 4
  · refine read_eq_of_fourBytes ?_ hin.1 hin.2
    rw [Machine.packStride, Machine.packStride, fourBytes_writeWord, fourBytes_writeWord, hbundle]
  · rw [read_packStride order c m (by omega), read_packStride order c m' (by omega), h a ha]

/-- A stride changes no byte outside its call's range. -/
theorem read_packStride_of_not_covers (order : ByteOrder) {c : HostCall} (m : Memory) {k a : Nat}
    (hk : k < strideCount c) (ha : c.covers a = false) : Memory.read (packStride order c m k) a = Memory.read m a := by
  refine read_packStride order c m ?_
  by_contra hin
  rw [HostCall.covers_stride hk (by omega) (by omega)] at ha
  cases ha

/-- In the range of either call, an interleaving reads as that call's own strides alone, in their order. -/
theorem agreeOn_packTwo (order : ByteOrder) {c d : HostCall} {b : Bool}
    (hdisjoint : (callOfTwo c d b).overlaps (callOfTwo c d (!b)) = false) {ks : List (Bool × Nat)}
    (hks : ∀ k ∈ ks, k.2 < strideCount (callOfTwo c d k.1)) {m m' : Memory} (h : AgreeOn (callOfTwo c d b) m m') :
    AgreeOn (callOfTwo c d b) (packTwo order c d m ks)
      (packStrides order (callOfTwo c d b) m' ((ks.filter fun k => k.1 == b).map Prod.snd)) := by
  induction ks generalizing m m' with
  | nil => exact h
  | cons k ks ih =>
    obtain ⟨i, j⟩ := k
    obtain ⟨hj, hks⟩ := List.forall_mem_cons.1 hks
    rw [packTwo_cons]
    by_cases hi : i = b
    · subst hi
      simpa [List.filter_cons, packStrides] using ih hks (h.packStride order hj)
    · have hother : i = !b := Bool.eq_not_of_ne hi
      have hkept : AgreeOn (callOfTwo c d b) (packStride order (callOfTwo c d i) m j) m' := fun a ha => by
        rw [read_packStride_of_not_covers order m hj (hother ▸ HostCall.overlaps_eq_false.1 hdisjoint a ha), h a ha]
      simpa [List.filter_cons, hi] using ih hks hkept

/-- Outside both ranges an interleaving changes nothing. -/
theorem read_packTwo_outside (order : ByteOrder) {c d : HostCall} {ks : List (Bool × Nat)}
    (hks : ∀ k ∈ ks, k.2 < strideCount (callOfTwo c d k.1)) (m : Memory) {a : Nat}
    (ha : ∀ b, (callOfTwo c d b).covers a = false) : Memory.read (packTwo order c d m ks) a = Memory.read m a := by
  induction ks generalizing m with
  | nil => rfl
  | cons k ks ih =>
    obtain ⟨hk, hks⟩ := List.forall_mem_cons.1 hks
    rw [packTwo_cons, ih hks, read_packStride_of_not_covers order m hk (ha k.1)]

/-- Ranges of which one ends before the other begins have no byte in common. -/
theorem overlaps_eq_false_of_le {c d : HostCall} (h : c.base + c.length ≤ d.base ∨ d.base + d.length ≤ c.base) :
    c.overlaps d = false := by
  rw [HostCall.overlaps, decide_eq_false_iff_not]
  omega

/-- Settles O57: a step that is no move of a call writes into other calls' ranges only; and in either range an
interleaving is that call's own strides in some order. -/
theorem disjointCallsDoNotInteract : Obligations.DisjointCallsDoNotInteract := by
  refine ⟨fun s t who c hs hc h hmover => ⟨?call, fun a ha => step_read_of_covers hs h hc hmover ha⟩,
    fun order c d m ks hranges hc hd a => ?interleaving⟩
  case call => rw [step_callOf h (hc ▸ Option.some_ne_none c) hmover, hc]
  case interleaving =>
    have hown : ∀ b, ((ks.filter fun k => k.1 == b).map Prod.snd).Perm (List.range (strideCount (callOfTwo c d b)))
      | false => by simp only [beq_false]; exact hc
      | true => by simp only [beq_true]; exact hd
    have hks : ∀ k ∈ ks, k.2 < strideCount (callOfTwo c d k.1) := fun k hk =>
      List.mem_range.1 <| (hown k.1).mem_iff.1 <| List.mem_map_of_mem <| List.mem_filter.2 ⟨hk, beq_self_eq_true _⟩
    have hdisjoint : ∀ b, (callOfTwo c d b).overlaps (callOfTwo c d (!b)) = false
      | false => overlaps_eq_false_of_le hranges
      | true => overlaps_eq_false_of_le hranges.symm
    have halone : ∀ b, (callOfTwo c d b).covers a = true →
        Memory.read (packTwo order c d m ks) a = Memory.read (hostPackMem order (callOfTwo c d b) m) a := fun b hb =>
      (agreeOn_packTwo order (hdisjoint b) hks (fun _ _ => rfl) a hb).trans (read_packStrides_of_perm order _ m (hown b) a)
    exact ⟨halone false, halone true, fun hc hd => read_packTwo_outside order hks m (Bool.forall_bool.2 ⟨hc, hd⟩)⟩

/-! ### Termination -/

/-- A termination where the caller has a call in progress (R108). -/
theorem step_terminate {s : State} {who : Caller} {c : ActiveCall} {rest : List Event} (hc : s.callOf who = some c)
    (ha : s.agenda = .terminate who :: rest) :
    step s = .next ((((s.setAgenda rest).setMem (Memory.writeBytes s.mem c.req.base
      ((List.range c.req.length).map fun i => Config.freeByte (s.freeCount + i)))).setCall who none).useFree
        c.req.length) := by
  rw [step_event ha (.inr rfl), handle, terminateCall, State.setAgenda_callOf, hc]
  rfl

/-- Settles O60: the bytes of the range are written one after the other with free values, and the call is over. -/
theorem terminationLeavesAnyBytes : Obligations.TerminationLeavesAnyBytes := by
  intro s who c rest hc ha
  have hcalls : ∀ w m n, (((((s.setAgenda rest).setMem m).setCall who none).useFree n).callOf w) =
      if w = who then none else s.callOf w := fun w m n =>
    State.callOf_setCall ((s.setAgenda rest).setMem m) who w none (hc ▸ Option.some_ne_none c)
  refine ⟨_, step_terminate hc ha, ?returned, fun w hw => ?others, ?agenda, ?cfg, ?ports,
    ⟨?pixQ, ?vldQ, ?resetSeen⟩, ?consumed, fun i hi => ?free, fun a ha => ?outside⟩
  case returned => rw [hcalls, if_pos rfl]
  case others => rw [hcalls, if_neg hw]
  case free =>
    simp only [State.useFree_mem, State.setCall_mem, State.setMem_mem, Memory.read_writeBytes, List.length_map,
      List.length_range]
    rw [dif_pos (by omega)]
    simp
  case outside =>
    simp only [State.useFree_mem, State.setCall_mem, State.setMem_mem, Memory.read_writeBytes, List.length_map,
      List.length_range]
    exact dif_neg (of_decide_eq_false ha)
  all_goals simp

end Sys2Proof.Machine
end

section
/-! PROOF. What each operation leaves alone, where it stops, and which operation a step runs (10_state.md section 4,
30_encoding.md sections 2 and 3, 41_clocked_ops.md section 1). -/

namespace Sys2Proof.Machine

/-- Settles O25: an operation's effect is on the ports or the registers, and the clauses are read off it. -/
theorem operationFrame : Obligations.OperationFrame := by
  intro i s t h
  obtain ⟨hcfg, hmem, hcall, hothers, hconsumed, hagenda, hfree⟩ := exec_keeps h
  obtain ⟨-, rfl⟩ := exec_next h
  refine ⟨hcfg, hcall, hothers, hconsumed, hagenda, hfree, fun a => by rw [hmem], ?rst, fun hv => ?ports, fun hv => ?regs,
    fun hi => hi ▸ rfl, fun hne => ?reset⟩
  case rst => cases i <;> rfl
  case ports => cases i with
    | pack o v => cases hv
    | _ => rfl
  case regs => cases i with
    | pack o v => exact ⟨rfl, rfl, rfl⟩
    | _ => cases hv
  case reset => cases i with
    | reset v => exact absurd rfl (hne v)
    | _ => rfl

/-- Settles O26: an operation is well-formed exactly in its own variant, the one where it completes. -/
theorem stopsOnlyOutsideItsVariant : Obligations.StopsOnlyOutsideItsVariant := by
  intro i s
  refine ⟨fun hwf => exec_eq_refused fun hv => ?_, fun hwf => exec_completes ((Laws.Encoding.wellFormed_iff i _).1 hwf)⟩
  rw [(Laws.Encoding.wellFormed_iff i _).2 hv] at hwf
  cases hwf

/-- Settles O23: CAPTURE does not look at the registers, which are all that a first CAPTURE changes. -/
theorem capturesOverwrite : Obligations.CapturesOverwrite := by
  intro o o' s hs
  have hcaptured : (effect (.capture o) s).cfg.registered = .singleCycle := hs
  refine ⟨_, _, exec_eq_next_effect hs, exec_eq_next_effect hcaptured, ?_, rfl, rfl⟩
  rw [exec_eq_next_effect hs]
  exact congrArg Host.Outcome.next (effect_capture_setRegs o' s (packWord o) true).symm

/-- Settles O37: RESET's effect writes both registers, and the reset state has the same two values. -/
theorem resetValues : Obligations.ResetValues := by
  refine ⟨fun v s t _ h => ?_, fun cfg => ⟨rfl, rfl, rfl⟩⟩
  obtain ⟨-, rfl⟩ := exec_next h
  exact ⟨rfl, rfl⟩

/-- The operation that the sampled frame decodes to is the selected one. -/
theorem eq_selected_of_decode_fetch {s : State} {i : Instr} (h : decode s.cfg.registered (fetch s) = .ok i) :
    i = selected s.cfg.registered s.ports := by
  rw [decode_fetch] at h
  exact (Except.ok.inj h).symm

/-- The state after the instant at which a bundle is presented, with `in_valid = 1` and `rst = 0` (R98). -/
def presented (o : Bundle) (s : State) : State :=
  effect (selected s.cfg.registered ⟨o, true, false⟩) (s.setPorts ⟨o, true, false⟩)

theorem runPorts_eq_presented (o : Bundle) (s : State) :
    runPorts (s.setPorts ⟨o, true, false⟩) = .next (presented o s) := by
  rw [runPorts_eq]
  exact exec_eq_next_effect (selected_variant _ _).symm

/-- A stride is presented when no other is on the block (R96, R98). -/
theorem showStride_of_idle {c : ActiveCall} (hb : c.busy = false) (k : Nat) (o : Bundle) (s : State) :
    showStride c k o s = .next ((presented o s).setCall .host (some (c.put k (.shown o)))) := by
  rw [showStride, hb, runPorts_eq_presented]
  rfl

/-- The host waits while another stride's word is still to be taken (R98). -/
theorem showStride_of_busy {c : ActiveCall} (hb : c.busy = true) (k : Nat) (o : Bundle) (s : State) :
    showStride c k o s = .next s :=
  if_pos hb

/-- A move of a stride that the host has read presents it. -/
theorem moveStride_read {c : ActiveCall} {k : Nat} {o : Bundle} (hk : c.phase k = some (.read o)) (s : State) :
    moveStride .host c k s = showStride c k o s := by
  unfold moveStride
  rw [hk]

/-- Settles O27: an instant of the block, and a stride presented, perform what the ports select, which is what they decode
to. -/
theorem stepRunsDecodedOperation : Obligations.StepRunsDecodedOperation := by
  refine ⟨fun s i ha hc hi => ?ports, fun s i rest ha hi => ?edge, fun s rest ha => step_event ha (.inr rfl),
    fun s u c k o i ha hc hn hk hb hi hu => ?presented⟩
  case ports => rw [step_ports ha hc, eq_selected_of_decode_fetch hi]
  case edge =>
    rw [step_edge ha, runPorts_eq, eq_selected_of_decode_fetch hi]
    rfl
  case presented =>
    obtain ⟨-, rfl⟩ := exec_next hu
    rw [step_host ha hc, hostMove, hn, eq_selected_of_decode_fetch hi]
    exact (moveStride_read hk s).trans (showStride_of_idle hb k o s)

end Sys2Proof.Machine
end
section
/-! PROOF. Reading the outputs, and a loss of power (41_clocked_ops.md R86, 60_exceptions.md sections 2 and 5). -/

namespace Sys2Proof.Machine

/-- Before the first RESET edge both outputs of the single-cycle variant fault (R115). -/
theorem State.outputs_unreset {s : State} (h : s.cfg.registered = .singleCycle) (hr : s.resetSeen = false) :
    s.pixOut = .error .unresetRead ∧ s.outValid = .error .unresetRead := by
  simp [State.pixOut, State.outValid, h, hr]

/-- Where `out_valid` may be read, so may `pix_out`. -/
theorem State.pixOut_of_outValid {s : State} {v : Bool} (h : s.outValid = .ok v) : ∃ w, s.pixOut = .ok w := by
  rcases outputs_cases s with ⟨hv, -⟩ | ⟨-, hp, -⟩ | ⟨-, hp, -⟩
  · rw [hv] at h; cases h
  · exact ⟨_, hp⟩
  · exact ⟨_, hp⟩

/-- A consumer takes the word while `out_valid = 1` (R86). -/
theorem readOutputs_of_valid {s : State} {w : Word} (hv : s.outValid = .ok true) (hp : s.pixOut = .ok w) :
    readOutputs s = .next (s.consume w) := by
  simp only [readOutputs, hv, hp]

/-- A consumer takes nothing while `out_valid = 0` (R86). -/
theorem readOutputs_of_invalid {s : State} (hv : s.outValid = .ok false) : readOutputs s = .next s := by
  obtain ⟨w, hp⟩ := State.pixOut_of_outValid hv
  simp only [readOutputs, hv, hp]

/-- The host takes the word presented while `out_valid = 1`, and lowers `in_valid` (R98, log 7). -/
theorem takeStride_of_valid {s : State} {w : Word} (hv : s.outValid = .ok true) (hp : s.pixOut = .ok w)
    (c : ActiveCall) (k : Nat) (o : Bundle) : takeStride c k o s =
      .next ((s.setPorts ⟨s.ports.data, false, s.ports.rst⟩).setCall .host (some (c.put k (.taken w)))) := by
  simp only [takeStride, hv, hp]

/-- A word found lost is to be presented again (R129). -/
theorem takeStride_of_invalid {s : State} (hv : s.outValid = .ok false) (c : ActiveCall) (k : Nat) (o : Bundle) :
    takeStride c k o s = .next (s.setCall .host (some (c.put k (.read o)))) := by
  obtain ⟨w, hp⟩ := State.pixOut_of_outValid hv
  simp only [takeStride, hv, hp]

/-- A move of a stride that the host has presented looks for its word. -/
theorem moveStride_shown {c : ActiveCall} {k : Nat} {o : Bundle} (hk : c.phase k = some (.shown o)) (s : State) :
    moveStride .host c k s = takeStride c k o s := by
  unfold moveStride
  rw [hk]

/-- A consumer's read is handled at once, call in progress or not. -/
theorem step_readOut {s : State} {rest : List Event} (ha : s.agenda = .readOut :: rest) :
    step s = readOutputs (s.setAgenda rest) :=
  step_event ha (.inr rfl)

/-- Settles O36: the read looks at the outputs of the state it is made in. -/
theorem consumerTakesValidWords : Obligations.ConsumerTakesValidWords := by
  intro s rest ha
  rw [step_readOut ha]
  exact ⟨fun w hv hp => readOutputs_of_valid (s := s.setAgenda rest) hv hp,
    fun hv => readOutputs_of_invalid (s := s.setAgenda rest) hv⟩

/-- What the call holds for a stride to do makes it one of those left. -/
theorem ActiveCall.mem_left_of_phase {c : ActiveCall} {k : Nat} {p : Phase} (h : c.phase k = some p) : k ∈ c.left :=
  (c.phase_isSome k).1 (by rw [h]; rfl)

/-- The move of a host that has presented a stride. -/
theorem step_shown {s : State} {c : ActiveCall} {k : Nat} {o : Bundle} (hc : s.call = some c) (hk : hostStride s = some k)
    (hp : c.phase k = some (.shown o)) : ∃ es, step s = takeStride c k o (s.setAgenda es) := by
  obtain ⟨es, hstep⟩ := step_stride hc hk (ActiveCall.mem_left_of_phase hp)
  exact ⟨es, hstep.trans (moveStride_shown hp _)⟩

/-- Settles O39: a consumer's read and the host's look at both outputs, which fault in the single-cycle variant before the
first RESET and read the ports in the combinational one. -/
theorem unresetReadFaults : Obligations.UnresetReadFaults := by
  refine ⟨fun s rest hs hr => ?outputs, fun s c k o hs hr hc hk hp => ?host,
    fun order => State.losePower_resetSeen _ rfl, fun s rest hs ha => ?combinational,
    fun s c k o hs hc hk hp => ?combinationalHost⟩
  case outputs =>
    obtain ⟨hpix, hvalid⟩ := State.outputs_unreset hs hr
    refine ⟨hpix, hvalid, fun ha => ?_⟩
    have hvalid' : (s.setAgenda rest).outValid = .error .unresetRead := hvalid
    simp only [step_readOut ha, readOutputs, hvalid']
  case host =>
    obtain ⟨es, hstep⟩ := step_shown hc hk hp
    have hvalid : (s.setAgenda es).outValid = .error .unresetRead := (State.outputs_unreset hs hr).2
    simp only [hstep, takeStride, hvalid]
  case combinational =>
    have hpix := State.pixOut_of_combinational (s := s.setAgenda rest) hs
    have hvalid := State.outValid_of_combinational (s := s.setAgenda rest) hs
    rw [step_readOut ha]
    cases hv : (s.setAgenda rest).ports.inValid with
    | true => exact ⟨_, readOutputs_of_valid (hv ▸ hvalid) hpix⟩
    | false => exact ⟨_, readOutputs_of_invalid (hv ▸ hvalid)⟩
  case combinationalHost =>
    obtain ⟨es, hstep⟩ := step_shown hc hk hp
    have hpix := State.pixOut_of_combinational (s := s.setAgenda es) hs
    have hvalid := State.outValid_of_combinational (s := s.setAgenda es) hs
    rw [hstep]
    cases hv : (s.setAgenda es).ports.inValid with
    | true => exact ⟨_, takeStride_of_valid (hv ▸ hvalid) hpix c k o⟩
    | false => exact ⟨_, takeStride_of_invalid (hv ▸ hvalid) c k o⟩

/-- A loss of power is handled at once, call in progress or not. -/
theorem step_powerLoss {s : State} {rest : List Event} (ha : s.agenda = .powerLoss :: rest) :
    step s = .next (s.setAgenda rest).losePower :=
  step_event ha (.inr rfl)

/-- Settles O41: a loss of power touches the registers of the single-cycle variant alone, which may not be read after
it. -/
theorem powerLossClears : Obligations.PowerLossClears := by
  intro s rest ha
  refine ⟨_, step_powerLoss ha, State.losePower_cfg _, State.losePower_ports _, State.losePower_mem _,
    State.losePower_call _, State.losePower_others _, State.losePower_consumed _, State.losePower_agenda _,
    fun hs => ?lost, fun hs => State.losePower_combinational _ hs⟩
  case lost =>
    have hvar : (s.setAgenda rest).losePower.cfg.registered = .singleCycle := by rw [State.losePower_cfg]; exact hs
    exact State.outputs_unreset hvar (State.losePower_resetSeen _ hs)

/-- Settles O43: what a read gives after a write, the canonical form kept, and that it is determined by the reads. -/
theorem memoryReadsBackWrites : Obligations.MemoryReadsBackWrites := by
  refine ⟨fun m a b v => ?read, fun _ a v h => Memory.wf_write h a v, fun _ _ h h' hread => Memory.ext_of_wf h h' hread⟩
  case read => simp only [Memory.read_write, eq_comm]

end Sys2Proof.Machine
end

section
/-! PROOF. The registers and the parameters over one step (10_state.md sections 4 and 5, 41_clocked_ops.md sections 1
and 3): the operation performed in the step, a loss of power, and nothing else. -/

namespace Sys2Proof.Machine

theorem SameBlock.refl (s : State) : SameBlock s s := ⟨rfl, rfl, rfl⟩

theorem SameBlock.trans {s t u : State} (h : SameBlock s t) (h' : SameBlock t u) : SameBlock s u :=
  ⟨h'.1.trans h.1, h'.2.1.trans h.2.1, h'.2.2.trans h.2.2⟩

/-- What becomes of a call is nothing to the block. -/
theorem sameBlock_setCall (s : State) (who : Caller) (c : Option ActiveCall) : SameBlock s (s.setCall who c) :=
  ⟨s.setCall_pixQ who c, s.setCall_vldQ who c, s.setCall_resetSeen who c⟩

/-- The state after the operation a step performs, if it performs one. -/
def performed (op : Option Instr) (s : State) : State :=
  match op with
  | none   => s
  | some i => effect i s

/-- From `s` to `t` the block's registers have been changed by the operation `op` alone, and the parameters not at all. -/
def BlockStep (op : Option Instr) (s t : State) : Prop := SameBlock (performed op s) t ∧ t.cfg = s.cfg

/-- What an operation leaves in the registers depends on the registers alone. -/
theorem sameBlock_effect (i : Instr) {s s' : State} (h : SameBlock s s') : SameBlock (effect i s) (effect i s') := by
  obtain ⟨hpix, hvld, hseen⟩ := h
  cases i with
  | pack o v => exact ⟨hpix, hvld, hseen⟩
  | capture o => exact ⟨rfl, rfl, hseen⟩
  | idle => exact ⟨hpix, rfl, hseen⟩
  | reset v => exact ⟨rfl, rfl, rfl⟩

theorem sameBlock_performed (op : Option Instr) {s s' : State} (h : SameBlock s s') :
    SameBlock (performed op s) (performed op s') := by
  cases op with
  | none => exact h
  | some i => exact sameBlock_effect i h

theorem BlockStep.refl (s : State) : BlockStep none s s := ⟨SameBlock.refl s, rfl⟩

theorem blockStep_setPorts (s : State) (p : Ports) : BlockStep none s (s.setPorts p) := ⟨SameBlock.refl s, rfl⟩

theorem blockStep_setMem (s : State) (m : Memory) : BlockStep none s (s.setMem m) := ⟨SameBlock.refl s, rfl⟩

theorem BlockStep.setCall {op : Option Instr} {s t : State} (h : BlockStep op s t) (who : Caller)
    (c : Option ActiveCall) : BlockStep op s (t.setCall who c) :=
  ⟨h.1.trans (sameBlock_setCall t who c), (State.setCall_cfg ..).trans h.2⟩

/-- An operation performed on given ports. -/
theorem blockStep_exec {i : Instr} {s t : State} {p : Ports} (h : exec i (s.setPorts p) = .next t) :
    BlockStep (some i) s t := by
  obtain ⟨hcfg, -⟩ := exec_keeps h
  obtain ⟨-, rfl⟩ := exec_next h
  exact ⟨sameBlock_effect i (s := s) (s' := s.setPorts p) (SameBlock.refl s), hcfg⟩

/-- A stride that is not read is not presented, so that its move performs no operation. -/
theorem strideOperation_eq_none {c : ActiveCall} {k : Nat} (h : ∀ o, c.phase k ≠ some (.read o)) (s : State) :
    strideOperation c k s = none := by
  unfold strideOperation
  split
  · next o ho => exact absurd ho (h o)
  all_goals rfl

theorem strideOperation_of_read {c : ActiveCall} {k : Nat} {o : Bundle} (h : c.phase k = some (.read o)) (s : State) :
    strideOperation c k s = if c.busy then none else some (selected s.cfg.registered ⟨o, true, false⟩) := by
  unfold strideOperation
  rw [h]

/-- A move of a stride performs the operation with which the host presents it, if it does. -/
theorem blockStep_moveStride {who : Caller} {c : ActiveCall} {k : Nat} {s t : State}
    (h : moveStride who c k s = .next t) : BlockStep (if who = .host then strideOperation c k s else none) s t := by
  have none_of : (∀ o, c.phase k ≠ some (.read o)) ∨ who ≠ .host →
      (if who = .host then strideOperation c k s else none) = none := by
    rintro (hp | hw)
    · rw [strideOperation_eq_none hp, ite_self]
    · rw [if_neg hw]
  rcases moveStride_next h with ⟨hp, rfl⟩ | ⟨hp, rfl⟩ | ⟨o, -, hw, rfl⟩ | ⟨o, hp, rfl, hs⟩ | ⟨o, hp, rfl, hs⟩ |
    ⟨w, hp, rfl⟩
  · rw [none_of (.inl fun o => by simp [hp])]
    exact .refl _
  · rw [none_of (.inl fun o => by simp [hp])]
    exact (BlockStep.refl s).setCall ..
  · rw [none_of (.inr hw)]
    exact (BlockStep.refl s).setCall ..
  · rw [if_pos rfl, strideOperation_of_read hp]
    rcases showStride_next hs with ⟨hb, rfl⟩ | ⟨hb, u, hu, rfl⟩
    · rw [if_pos hb]
      exact .refl _
    · rw [if_neg (by simp [hb])]
      exact (blockStep_exec hu).setCall ..
  · rw [none_of (.inl fun o => by simp [hp])]
    rcases takeStride_next hs with ⟨-, rfl⟩ | ⟨w, -, -, rfl⟩
    · exact (BlockStep.refl s).setCall ..
    · exact (blockStep_setPorts s _).setCall ..
  · rw [none_of (.inl fun o => by simp [hp])]
    exact (blockStep_setMem s _).setCall ..

theorem CallStep.blockStep {who : Caller} {c : ActiveCall} {op : Option Instr} {s t : State} (h : CallStep who c op s t) :
    BlockStep op s t := by
  cases h with
  | returns _ ho ht => subst ho ht; exact (BlockStep.refl s).setCall ..
  | moves k ho ht => exact ho ▸ blockStep_moveStride ht
  | beside k o _ _ ho ht => subst ho ht; exact (BlockStep.refl s).setCall ..
  | picks k _ ho ht => subst ho ht; exact (BlockStep.refl s).setCall ..

/-- No event that is no instant of the block changes a parameter, and only a loss of power changes its registers. -/
theorem EventEffect.blockStep {e : Event} {s t : State} (h : EventEffect s t e) :
    t.cfg = s.cfg ∧ (e ≠ .powerLoss → SameBlock s t) := by
  cases h with
  | drive p ht => subst ht; exact ⟨rfl, fun _ => .refl s⟩
  | readOut h =>
    rcases readOutputs_next h with ⟨-, rfl⟩ | ⟨w, -, -, rfl⟩
    · exact ⟨rfl, fun _ => .refl _⟩
    · exact ⟨rfl, fun _ => .refl s⟩
  | call c h => obtain ⟨-, rfl⟩ := startCall_next h; exact ⟨rfl, fun _ => .refl s⟩
  | otherCall c h => obtain ⟨-, rfl⟩ := startOther_next h; exact ⟨rfl, fun _ => .refl s⟩
  | otherRead a _ ht => subst ht; exact ⟨rfl, fun _ => .refl _⟩
  | otherWrite a v _ ht => subst ht; exact ⟨rfl, fun _ => .refl s⟩
  | terminate who ht =>
    subst ht
    rcases terminateCall_cases who s with ⟨-, heq⟩ | ⟨c, vs, -, -, heq⟩
    · rw [heq]; exact ⟨rfl, fun _ => .refl s⟩
    · rw [heq]; exact ⟨State.setCall_cfg .., fun _ => sameBlock_setCall (s.setMem _) who none⟩
  | powerLoss ht => subst ht; exact ⟨State.losePower_cfg s, fun hp => absurd rfl hp⟩
  | idle _ _ ht => subst ht; exact ⟨rfl, fun _ => .refl _⟩

/-- An operation does not look at the agenda. -/
theorem BlockStep.of_setAgenda {op : Option Instr} {s t : State} {es : List Event} (h : BlockStep op (s.setAgenda es) t) :
    BlockStep op s t :=
  ⟨(sameBlock_performed op (s := s) (s' := s.setAgenda es) (.refl s)).trans h.1, h.2⟩

/-- Over a step that loses no power the registers change by the operation performed alone. -/
theorem step_blockStep {s t : State} (hl : losesPower s = false) (h : step s = .next t) :
    BlockStep (nextOperation s) s t := by
  cases step_next h with
  | operation i es hn _ _ h => rw [hn]; exact (blockStep_exec (p := s.ports) (s := s.setAgenda es) h).of_setAgenda
  | call who c es _ _ _ h => exact h.blockStep.of_setAgenda
  | event e rest ha _ hn h =>
    rw [hn]
    have hpower : e ≠ .powerLoss := by rintro rfl; simp [losesPower, ha] at hl
    obtain ⟨hcfg, hblock⟩ := h.blockStep
    exact ⟨hblock hpower, hcfg⟩

/-- A step that loses power does nothing else (R124). -/
theorem step_of_losesPower {s : State} (hl : losesPower s = true) :
    ∃ rest, step s = .next (s.setAgenda rest).losePower ∧ nextOperation s = none := by
  obtain ⟨rest, ha⟩ : ∃ rest, s.agenda = .powerLoss :: rest := by
    simpa [losesPower, List.head?_eq_some_iff] using hl
  exact ⟨rest, step_powerLoss ha, nextOperation_aside ha (.inr rfl) (by simp)⟩

/-- Settles O35: an operation, a change of a call and every other event keep the parameters. -/
theorem parametersNeverChange : Obligations.ParametersNeverChange := by
  intro s t h
  cases hl : losesPower s with
  | false => exact (step_blockStep hl h).2
  | true =>
    obtain ⟨rest, hstep, -⟩ := step_of_losesPower hl
    cases hstep.symm.trans h
    exact State.losePower_cfg _

/-- Settles O30: what each operation leaves in the registers. -/
theorem registersFollowOperations : Obligations.RegistersFollowOperations := by
  intro s t _ hl h
  obtain ⟨⟨hpix, hvld, -⟩, -⟩ := step_blockStep hl h
  rw [hpix, hvld]
  cases nextOperation s with
  | none => rfl
  | some i => cases i <;> rfl

/-- An operation ends the power-up interval exactly if it is RESET (R28). -/
theorem effect_resetSeen (i : Instr) {s : State} (hr : s.resetSeen = false) :
    (effect i s).resetSeen = true ↔ ∃ v, i = .reset v := by
  cases i <;> simp [effect, hr]

/-- No operation begins the power-up interval (R28, R124). -/
theorem performed_resetSeen_of_true (op : Option Instr) {s : State} (hr : s.resetSeen = true) :
    (performed op s).resetSeen = true := by
  cases op with
  | none => exact hr
  | some i => cases i <;> simp [performed, effect, hr]

/-- Settles O40: the mark is set by RESET's effect alone, and cleared by a loss of power alone. -/
theorem onlyResetEndsPowerUp : Obligations.OnlyResetEndsPowerUp := by
  intro s t hs h
  cases hl : losesPower s with
  | true =>
    obtain ⟨rest, hstep, hn⟩ := step_of_losesPower hl
    cases hstep.symm.trans h
    have hlost : (s.setAgenda rest).losePower.resetSeen = false := State.losePower_resetSeen _ hs
    simp [hlost, hn]
  | false =>
    obtain ⟨⟨-, -, hseen⟩, -⟩ := step_blockStep hl h
    refine ⟨fun hr => ?ends, fun hr => ?begins⟩
    case ends =>
      rw [hseen]
      cases nextOperation s with
      | none => simp [performed, hr]
      | some i => simpa [performed] using effect_resetSeen i hr
    case begins => simp [hseen, performed_resetSeen_of_true _ hr]

/-! ### The outputs -/

/-- The outputs of the single-cycle variant are functions of the registers (R24). -/
theorem outputs_of_sameBlock {s t : State} (hs : s.cfg.registered = .singleCycle) (hcfg : t.cfg = s.cfg)
    (h : SameBlock s t) : t.pixOut = s.pixOut ∧ t.outValid = s.outValid := by
  obtain ⟨hpix, hvld, hseen⟩ := h
  simp only [State.pixOut, State.outValid, hcfg, hs, hpix, hvld, hseen, and_self]

/-- A step with no operation and no loss of power leaves the registers and the parameters. -/
theorem step_of_no_operation {s t : State} (hl : losesPower s = false) (hn : nextOperation s = none)
    (h : step s = .next t) : SameBlock s t ∧ t.cfg = s.cfg := by
  have hblock := step_blockStep hl h
  rw [hn] at hblock
  exact hblock

/-- Settles O31: the outputs read the registers, which such a step leaves alone. -/
theorem outputsAreTheState : Obligations.OutputsAreTheState := by
  intro s hs
  refine ⟨fun hr => ⟨State.pixOut_of_resetSeen hs hr, State.outValid_of_resetSeen hs hr⟩, fun t hl hn h => ?_⟩
  obtain ⟨hblock, hcfg⟩ := step_of_no_operation hl hn h
  exact outputs_of_sameBlock hs hcfg hblock

/-- A run of one more step takes that step first. -/
theorem run_succ_next {n : Nat} {s u : State} (h : Host.Core.run core (n + 1) s = .next u) :
    ∃ t, step s = .next t ∧ Host.Core.run core n t = .next u := by
  cases hstep : step s with
  | next t => exact ⟨t, rfl, run_succ hstep ▸ h⟩
  | fault r =>
    have hcore : core.step s = .fault r := hstep
    simp only [Host.Core.run, hcore] at h
    cases h
  | refused r =>
    have hcore : core.step s = .refused r := hstep
    simp only [Host.Core.run, hcore] at h
    cases h

/-- Steps without an operation and without a loss of power leave the registers and the parameters. -/
theorem quiet_run_sameBlock {n : Nat} {s u : State} (hq : Quiet n s) (hrun : Host.Core.run core n s = .next u) :
    SameBlock s u ∧ u.cfg = s.cfg := by
  induction n generalizing s with
  | zero => cases hrun; exact ⟨.refl _, rfl⟩
  | succ n ih =>
    obtain ⟨hn, hl, hrest⟩ := hq
    obtain ⟨t, hstep, hrun⟩ := run_succ_next hrun
    obtain ⟨hblock, hcfg⟩ := step_of_no_operation hl hn hstep
    obtain ⟨hblock', hcfg'⟩ := ih (hrest t hstep) hrun
    exact ⟨hblock.trans hblock', hcfg'.trans hcfg⟩

/-- Settles O32: the edge is a CAPTURE, and what it leaves in the registers stays there. -/
theorem oneEdgeLatency : Obligations.OneEdgeLatency := by
  intro s rest hs hr ha hrst hvalid
  have hstep := step_edge_next ha
  rw [hs, selected_capture hrst hvalid] at hstep
  refine ⟨_, hstep, fun n u hq hrun => ?_⟩
  have hvar : (effect (.capture s.ports.data) (s.setAgenda rest)).cfg.registered = .singleCycle := hs
  obtain ⟨hblock, hcfg⟩ := quiet_run_sameBlock hq hrun
  obtain ⟨hpix, hval⟩ := outputs_of_sameBlock hvar hcfg hblock
  exact ⟨hpix.trans (State.pixOut_of_resetSeen hvar hr), hval.trans (State.outValid_of_resetSeen hvar hr)⟩

/-- Settles O33: both variants show the word of the same inputs. -/
theorem variantsAgree : Obligations.VariantsAgree := by
  intro s c rest hs hc hr ha hrst hvalid hdata hcvalid
  obtain ⟨t, hstep, hshown⟩ := oneEdgeLatency s rest hs hr ha hrst hvalid
  refine ⟨t, hstep, fun n u hq hrun => ?_⟩
  obtain ⟨hpix, hval⟩ := hshown n u hq hrun
  exact ⟨by rw [hpix, State.pixOut_of_combinational hc, hdata], hval, by rw [State.outValid_of_combinational hc, hcvalid]⟩

end Sys2Proof.Machine
end

section
/-! PROOF. How a call begins, and the data races (42_buffer_composition.md section 1, 20_memory.md section 4). -/

namespace Sys2Proof.Machine

/-- A call begins exactly when its checks do not turn it away. -/
theorem startCall_eq_elim (c : HostCall) (s : State) :
    startCall c s = (s.turnsAway c).elim (.next (s.setCall .host (some c.begun))) .fault := by
  unfold startCall
  cases s.turnsAway c <;> rfl

theorem startOther_eq_elim (c : HostCall) (s : State) :
    startOther c s = (s.turnsAway c).elim (.next (s.addOther c.begun)) .fault := by
  unfold startOther
  cases s.turnsAway c <;> rfl

/-- The checks of a call in the order of R94, the race last. -/
theorem turnsAway_elim (s : State) (c : HostCall) (u : State) :
    (s.turnsAway c).elim (.next u : Host.Outcome State Fault Refusal) .fault =
      if c.length % 4 ≠ 0 then .fault .lengthNotMultipleOf4
      else if 0 < c.length ∧ c.base = 0 then .fault .nullBuffer
      else if 0 < c.length ∧ c.base % 4 ≠ 0 then .fault .misalignedBuffer
      else if c.cap < c.length then .fault .bufferTooShort
      else if ∃ d ∈ s.running, max c.base d.base < min (c.base + c.length) (d.base + d.length) then .fault .dataRace
      else .next u := by
  have hrace : (s.running.any fun d => c.overlaps d) = true ↔
      ∃ d ∈ s.running, max c.base d.base < min (c.base + c.length) (d.base + d.length) := by
    simp only [List.any_eq_true, HostCall.overlaps, decide_eq_true_eq]
  simp only [State.turnsAway, HostCall.precheck, hrace]
  by_cases h1 : c.length % 4 ≠ 0
  · simp only [if_pos h1, Option.elim]
  by_cases h2 : 0 < c.length ∧ c.base = 0
  · simp only [if_neg h1, if_pos h2, Option.elim]
  by_cases h3 : 0 < c.length ∧ c.base % 4 ≠ 0
  · simp only [if_neg h1, if_neg h2, if_pos h3, Option.elim]
  by_cases h4 : c.cap < c.length
  · simp only [if_neg h1, if_neg h2, if_neg h3, if_pos h4, Option.elim]
  simp only [if_neg h1, if_neg h2, if_neg h3, if_neg h4]
  split <;> rfl

/-- Whether an access races: the ranges of the calls in progress that cover the address (R46). -/
theorem otherAccess_eq_ite (a : Nat) (s t : State) :
    otherAccess a s t = if ∃ d ∈ s.running, d.base ≤ a ∧ a < d.base + d.length then .fault .dataRace else .next t := by
  have hrace : s.callCovers a = true ↔ ∃ d ∈ s.running, d.base ≤ a ∧ a < d.base + d.length := by
    simp only [State.callCovers, List.any_eq_true, HostCall.covers, decide_eq_true_eq]
  simp only [otherAccess, hrace]

/-- A call of length zero is never turned away: no condition applies, and an empty range overlaps none (R94). -/
theorem turnsAway_of_length_zero (s : State) {c : HostCall} (h : c.length = 0) : s.turnsAway c = none := by
  refine turnsAway_eq_none.2 ⟨by simp [HostCall.precheck, h], fun d _ => ?_⟩
  rw [HostCall.overlaps, decide_eq_false_iff_not]
  omega

/-- A call that is not turned away begins. -/
theorem step_call {s : State} {c : HostCall} {rest : List Event} (hc : s.call = none) (ha : s.agenda = .call c :: rest)
    (h : s.turnsAway c = none) : step s = .next ((s.setAgenda rest).setCall .host (some c.begun)) := by
  have hturns : (s.setAgenda rest).turnsAway c = none := h
  rw [step_event ha (.inl hc), handle, startCall_eq_elim, hturns]
  rfl

/-- Settles O46: the checks of a call and of an access, written out. -/
theorem callPreconditions : Obligations.CallPreconditions := by
  refine ⟨fun s c rest hc ha => ?call, fun s c rest ha => ?otherCall, fun s a rest ha => ?read,
    fun s a v rest ha => ?write, State.mem_running, fun s c rest hlen h => ?zero⟩
  case call =>
    rw [step_event ha (.inl hc), handle, startCall_eq_elim, turnsAway_elim]
    rfl
  case otherCall =>
    rw [step_event ha (.inr rfl), handle, startOther_eq_elim, turnsAway_elim]
    rfl
  case read =>
    rw [step_event ha (.inr rfl), handle, otherAccess_eq_ite]
    rfl
  case write =>
    rw [step_event ha (.inr rfl), handle, otherAccess_eq_ite]
    rfl
  case zero =>
    have hturns : ∀ es, (s.setAgenda es).turnsAway c = none := fun es => turnsAway_of_length_zero _ hlen
    rcases h with ⟨hc, ha⟩ | ha
    · exact ⟨_, step_call hc ha (hturns s.agenda)⟩
    · rw [step_event ha (.inr rfl), handle, startOther_eq_elim, hturns]
      exact ⟨_, rfl⟩

/-- A call set and then taken away again, where there was none. -/
theorem State.setCall_host_none {s : State} (h : s.call = none) (c : Option ActiveCall) :
    (s.setCall .host c).setCall .host none = s := by
  cases s
  cases h
  rfl

/-- The move of a call with nothing left to do returns. -/
theorem step_returns {s : State} {c : ActiveCall} (ha : s.agenda = []) (hc : s.call = some c) (hw : c.work = []) :
    step s = .next (s.setCall .host none) := by
  rw [step_host ha hc, hostMove, ActiveCall.next_eq_none.2 hw]

/-- Settles O51: such a call begins, with no stride to do, and returns. -/
theorem zeroLengthCall : Obligations.ZeroLengthCall := by
  intro s c hc ha hlen
  have hwork : c.begun.work = [] := by simp [HostCall.begun, strideCount, hlen]
  rw [run_succ (step_call hc ha (turnsAway_of_length_zero s hlen)), run_succ (step_returns rfl rfl hwork)]
  exact congrArg Host.Outcome.next (State.setCall_host_none (s := s.setAgenda []) hc _)

end Sys2Proof.Machine
end
section
/-! PROOF. The moves of a call one by one (42_buffer_composition.md sections 2 and 4, 70_reset_and_hazards.md
section 1). -/

namespace Sys2Proof.Machine

/-- A stride of a caller's call has got so far, and nothing else of any call has changed. -/
theorem callMoved_put {s x : State} {who : Caller} {c : ActiveCall} {k : Nat} (hc : s.callOf who = some c)
    (hk : k ∈ c.left) (p : Phase) (hx : ∀ w, x.callOf w = s.callOf w) :
    CallMoved s (x.setCall who (some (c.put k p))) who k (some p) := by
  have hcalls : ∀ w, (x.setCall who (some (c.put k p))).callOf w = if w = who then some (c.put k p) else s.callOf w :=
    fun w => by rw [State.callOf_setCall _ _ _ _ (by rw [hx, hc]; exact Option.some_ne_none c), hx]
  refine ⟨c, c.put k p, hc, ?_, rfl, c.phase_put_self p hk, fun j hj => c.phase_put_ne p hj, fun w hw => ?_⟩
  · rw [hcalls, if_pos rfl]
  · rw [hcalls, if_neg hw]

/-- A stride of a caller's call is written, and nothing else of any call has changed. -/
theorem callMoved_done {s x : State} {who : Caller} {c : ActiveCall} (k : Nat) (hc : s.callOf who = some c)
    (hx : ∀ w, x.callOf w = s.callOf w) : CallMoved s (x.setCall who (some (c.done k))) who k none := by
  have hcalls : ∀ w, (x.setCall who (some (c.done k))).callOf w = if w = who then some (c.done k) else s.callOf w :=
    fun w => by rw [State.callOf_setCall _ _ _ _ (by rw [hx, hc]; exact Option.some_ne_none c), hx]
  refine ⟨c, c.done k, hc, ?_, rfl, c.phase_done_self k, fun j hj => c.phase_done_ne hj, fun w hw => ?_⟩
  · rw [hcalls, if_pos rfl]
  · rw [hcalls, if_neg hw]

/-! ### What a move does -/

theorem moveStride_unread {c : ActiveCall} {k : Nat} (hk : c.phase k = some .unread) (who : Caller) (s : State) :
    moveStride who c k s = .next (readStride who c k s) := by
  unfold moveStride
  rw [hk]

theorem moveStride_taken {c : ActiveCall} {k : Nat} {w : Word} (hk : c.phase k = some (.taken w)) (who : Caller)
    (s : State) : moveStride who c k s = .next (writeStride who c k w s) := by
  unfold moveStride
  rw [hk]

theorem moveStride_read_other {c : ActiveCall} {k : Nat} {o : Bundle} (hk : c.phase k = some (.read o)) (n : Nat)
    (s : State) : moveStride (.other n) c k s = .next (packElsewhere (.other n) c k o s) := by
  unfold moveStride
  rw [hk]

/-- The event that moves a stride still to do. -/
theorem step_strideEvent {s : State} {who : Caller} {c : ActiveCall} {k : Nat} {rest : List Event}
    (ha : s.agenda = .stride who k :: rest) (hc : s.callOf who = some c) (hk : k ∈ c.left) :
    step s = moveStride who c k (s.setAgenda rest) := by
  obtain ⟨e, w, hw⟩ := List.exists_cons_of_ne_nil (fun hw : c.work = [] => by simp [ActiveCall.left, hw] at hk)
  simp only [step_event ha (.inr rfl), handle, State.setAgenda_callOf, hc, callMove, hw]

/-- In a step that moves stride `k` of the host's call the block performs what that move performs. -/
theorem nextOperation_of_hostStride {s : State} {c : ActiveCall} {k : Nat} (hc : s.call = some c)
    (hk : hostStride s = some k) : nextOperation s = strideOperation c k s := by
  have hhost : hostOperation s = strideOperation c k s := by simp only [hostOperation, hc, hk]
  rw [← hhost]
  unfold nextOperation
  split
  · next hcall => rw [hc] at hcall; cases hcall
  · next ha => simp [hostStride, hc, ha, Event.waits] at hk
  · next ha => simp [hostStride, hc, ha, Event.waits] at hk
  · rfl

/-- The instant leaves the ports as they were driven. -/
theorem presented_ports (o : Bundle) (s : State) : (presented o s).ports = ⟨o, true, false⟩ := by
  unfold presented
  cases s.cfg.registered <;> rfl

/-- The instant is the block's alone. -/
theorem presented_keeps (o : Bundle) (s : State) :
    (presented o s).cfg = s.cfg ∧ (presented o s).mem = s.mem ∧ (presented o s).others = s.others ∧
    (presented o s).agenda = s.agenda ∧ (presented o s).resetSeen = s.resetSeen ∧
    ∀ w, (presented o s).callOf w = s.callOf w := by
  unfold presented
  cases s.cfg.registered <;> exact ⟨rfl, rfl, rfl, rfl, rfl, fun _ => rfl⟩

/-- In the single-cycle variant the instant is a CAPTURE. -/
theorem presented_registers (o : Bundle) {s : State} (hs : s.cfg.registered = .singleCycle) :
    (presented o s).pixQ = packWord o ∧ (presented o s).vldQ = true := by
  rw [presented, hs]
  exact ⟨rfl, rfl⟩

/-- Settles O47: the move of an unread stride reads memory and keeps it, and that of a stride read performs the operation on
the ports it drives, unless it waits. -/
theorem strideIsPresented : Obligations.StrideIsPresented := by
  intro s c k hc hk
  have hstep : ∀ p, c.phase k = some p → ∃ es, step s = moveStride .host c k (s.setAgenda es) := fun p hp =>
    step_stride hc hk (ActiveCall.mem_left_of_phase hp)
  refine ⟨fun hp => ?unread, fun o hp => ⟨fun hb => ?presented, fun hb => ?waits⟩⟩
  case unread =>
    obtain ⟨es, hs⟩ := hstep _ hp
    refine ⟨_, hs.trans (moveStride_unread hp .host _), ?_, rfl, rfl, .refl s,
      callMoved_put (who := .host) (s := s) (x := s.setAgenda es) hc (ActiveCall.mem_left_of_phase hp) _ fun _ => rfl⟩
    rw [nextOperation_of_hostStride hc hk, strideOperation_eq_none fun o => by simp [hp]]
  case presented =>
    obtain ⟨es, hs⟩ := hstep _ hp
    have hop : nextOperation s = some (selected s.cfg.registered ⟨o, true, false⟩) := by
      rw [nextOperation_of_hostStride hc hk, strideOperation_of_read hp, hb]
      rfl
    obtain ⟨-, hmem, -, -, -, hcalls⟩ := presented_keeps o (s.setAgenda es)
    refine ⟨_, hs.trans ((moveStride_read hp _).trans (showStride_of_idle hb k o _)), hmem, presented_ports o _,
      callMoved_put (who := .host) (s := s) hc (ActiveCall.mem_left_of_phase hp) _ hcalls, fun hv => ?pack,
      fun hv => ⟨?capture, presented_registers o (s := s.setAgenda es) hv⟩⟩
    case pack => rw [hop, hv]; rfl
    case capture => rw [hop, hv]; rfl
  case waits =>
    obtain ⟨es, hs⟩ := hstep _ hp
    refine ⟨es, hs.trans ((moveStride_read hp _).trans (showStride_of_busy hb k o _)), ?_⟩
    rw [nextOperation_of_hostStride hc hk, strideOperation_of_read hp, hb]
    rfl

/-- Settles O48: the word taken is the one the outputs show, and a word write changes its own four bytes alone. -/
theorem strideIsWrittenBack : Obligations.StrideIsWrittenBack := by
  intro s c k hc hk
  refine ⟨fun o w hp hv hw => ?taken, fun w hp => ?written⟩
  case taken =>
    obtain ⟨es, hs⟩ := step_shown hc hk hp
    exact ⟨_, hs.trans (takeStride_of_valid (s := s.setAgenda es) hv hw c k o), rfl, rfl, .refl s,
      callMoved_put (who := .host) (s := s) (x := (s.setAgenda es).setPorts _) hc
        (ActiveCall.mem_left_of_phase hp) _ fun _ => rfl⟩
  case written =>
    obtain ⟨es, hs⟩ := step_stride hc hk (ActiveCall.mem_left_of_phase hp)
    exact ⟨_, hs.trans (moveStride_taken hp .host _), fourBytes_writeWord .., fun a ha =>
      Memory.read_writeWord_outside _ _ _ _ ha, rfl, .refl s,
      callMoved_done (who := .host) (s := s) (x := (s.setAgenda es).setMem _) k hc fun _ => rfl⟩

/-- A move of another agent's call completes, and leaves this block and the host's call. -/
theorem callMove_other_completes (n : Nat) (c : ActiveCall) (k : Nat) (s : State) :
    ∃ t, callMove (.other n) c k s = .next t ∧ t.call = s.call ∧ t.ports = s.ports ∧ SameBlock s t := by
  unfold callMove
  split
  · exact ⟨_, rfl, rfl, rfl, .refl s⟩
  · unfold moveStride
    cases c.phase k with
    | none => exact ⟨_, rfl, rfl, rfl, .refl s⟩
    | some p => cases p <;> exact ⟨_, rfl, rfl, rfl, .refl s⟩

/-- Settles O49: a stride packed beside this block, and the moves of another agent's call, change that call alone, and
memory where its word is written. -/
theorem stridesOnOtherBlocks : Obligations.StridesOnOtherBlocks := by
  refine ⟨fun s c k o rest hc ha hp => ?beside, fun s n c k rest hc ha => ?other⟩
  case beside =>
    have hs : step s = .next (packElsewhere .host c k o (s.setAgenda rest)) := by
      simp only [step_event ha (.inr rfl), handle, State.setAgenda_call, hc, besideStride, hp]
    exact ⟨_, hs, rfl, rfl, .refl s,
      callMoved_put (who := .host) (s := s) (x := s.setAgenda rest) hc (ActiveCall.mem_left_of_phase hp) _ fun _ => rfl⟩
  case other =>
    have hs : step s = callMove (.other n) c k (s.setAgenda rest) := by
      simp only [step_event ha (.inr rfl), handle, State.setAgenda_callOf, hc]
    obtain ⟨t, ht, hcall, hports, hblock⟩ := callMove_other_completes n c k (s.setAgenda rest)
    have moved : ∀ {p u}, c.phase k = some p → moveStride (.other n) c k (s.setAgenda rest) = .next u → t = u :=
      fun hp hu => Host.Outcome.next.inj <| (hs.trans ht).symm.trans <|
        (step_strideEvent ha hc (ActiveCall.mem_left_of_phase hp)).trans hu
    refine ⟨t, hs.trans ht, hcall, hports, hblock, fun hw => ?returned, fun hp => ?read, fun o hp => ?packed,
      fun w hp => ?written⟩
    case returned =>
      have hreturn : t = (s.setAgenda rest).setCall (.other n) none := by
        simp only [callMove, hw] at ht
        exact (Host.Outcome.next.inj ht).symm
      rw [hreturn]
      refine ⟨?_, rfl⟩
      rw [State.callOf_setCall _ _ _ _ (by rw [State.setAgenda_callOf, hc]; exact Option.some_ne_none c), if_pos rfl]
    case read =>
      rw [moved hp (moveStride_unread hp _ _)]
      exact ⟨callMoved_put (x := s.setAgenda rest) hc (ActiveCall.mem_left_of_phase hp) _ fun _ => rfl, rfl⟩
    case packed =>
      rw [moved hp (moveStride_read_other hp n _)]
      exact ⟨callMoved_put (x := s.setAgenda rest) hc (ActiveCall.mem_left_of_phase hp) _ fun _ => rfl, rfl⟩
    case written =>
      rw [moved hp (moveStride_taken hp _ _)]
      exact ⟨callMoved_done (x := (s.setAgenda rest).setMem _) k hc fun _ => rfl, fourBytes_writeWord ..,
        fun a ha => Memory.read_writeWord_outside _ _ _ _ ha⟩

/-- A RESET edge is an instant of the block at once, call in progress or not (R129). -/
theorem step_rstEdge {s : State} {rest : List Event} (hs : s.cfg.registered = .singleCycle)
    (ha : s.agenda = .rstEdge :: rest) :
    step s = .next (effect (.reset s.ports.inValid) (s.setAgenda rest)) := by
  rw [step_event ha (.inr rfl)]
  exact exec_eq_next_effect (i := .reset s.ports.inValid) (s := s.setAgenda rest) hs

section
variable {s : State} {c : ActiveCall} {k : Nat} {o : Bundle} {rest : List Event}
  (ha : s.agenda = .stride .host k :: rest) (hc : s.call = some c)
include ha hc

/-- At an event that moves a stride whose word is lost, the host is back where it had read the stride (R129). -/
theorem step_strideEvent_lost (hp : c.phase k = some (.shown o)) (hv : s.outValid = .ok false) :
    ∃ t, step s = .next t ∧ t.mem = s.mem ∧ t.cfg = s.cfg ∧ t.agenda = rest ∧ t.call = some (c.put k (.read o)) ∧
      CallMoved s t .host k (some (.read o)) := by
  have hleft : k ∈ c.left := ActiveCall.mem_left_of_phase hp
  have hstep := step_strideEvent ha hc hleft
  rw [moveStride_shown hp, takeStride_of_invalid (s := s.setAgenda rest) hv] at hstep
  exact ⟨_, hstep, rfl, rfl, rfl, rfl, callMoved_put (who := .host) (x := s.setAgenda rest) hc hleft _ fun _ => rfl⟩

/-- At an event that moves a stride it has read, the host presents it to a single-cycle block that has no other. -/
theorem step_strideEvent_presents (hs : s.cfg.registered = .singleCycle) (hp : c.phase k = some (.read o))
    (hb : c.busy = false) :
    ∃ t, step s = .next t ∧ t.mem = s.mem ∧ CallMoved s t .host k (some (.shown o)) ∧ t.pixQ = packWord o ∧
      t.vldQ = true := by
  have hleft : k ∈ c.left := ActiveCall.mem_left_of_phase hp
  have hstep := step_strideEvent ha hc hleft
  rw [moveStride_read hp, showStride_of_idle hb] at hstep
  obtain ⟨-, hmem, -, -, -, hcalls⟩ := presented_keeps o (s.setAgenda rest)
  exact ⟨_, hstep, hmem, callMoved_put (who := .host) hc hleft _ hcalls, presented_registers o (s := s.setAgenda rest) hs⟩

end

/-- Settles O50: RESET clears `vld_q`, so that the host finds the word lost; with nothing else on the block it presents the
stride again at its next move. -/
theorem lostStrideIsPresentedAgain : Obligations.LostStrideIsPresentedAgain := by
  refine ⟨fun v s t h => (exec_keeps h).2.1, fun s c k o rest hs ha hc hsound hp => ?_⟩
  have hreset := step_rstEdge hs ha
  have hinvalid := (effect_reset_outputs s.ports.inValid
    (s := s.setAgenda (.stride .host k :: .stride .host k :: rest)) hs).2
  obtain ⟨u, hu, humem, hucfg, huagenda, hucall, humoved⟩ := step_strideEvent_lost
    (s := effect (.reset s.ports.inValid) (s.setAgenda (.stride .host k :: .stride .host k :: rest))) rfl hc hp hinvalid
  have hread : (c.put k (.read o)).phase k = some (.read o) := c.phase_put_self _ (ActiveCall.mem_left_of_phase hp)
  obtain ⟨v, hv, hvmem, hvmoved, hpix, hvld⟩ := step_strideEvent_presents huagenda hucall (by rw [hucfg]; exact hs) hread
    (hsound.busy_put hp rfl)
  exact ⟨_, u, v, hreset, hu, hv, rfl, humem, hvmem.trans humem, hinvalid, humoved, hvmoved, hpix, hvld⟩

end Sys2Proof.Machine
end

section
/-! PROOF. The progress of a call over one step, whatever comes between its moves (42_buffer_composition.md sections 2
to 4). -/

namespace Sys2Proof.Machine

/-- The bundle is on the data ports, and a word that the single-cycle variant shows as valid is that bundle's (R98). -/
def WordRight (s : State) (o : Bundle) : Prop :=
  s.ports.data = o ∧
    (s.cfg.registered = .singleCycle → s.vldQ = true → s.resetSeen = true → s.pixQ = packWord o)

/-- What a call holds for a stride on the block is right if the bundle is the stride's and the block shows its word. -/
theorem phaseRight_shown {s : State} {c : ActiveCall} {m0 : Memory} {k : Nat} {o : Bundle} :
    PhaseRight s c m0 k (.shown o) ↔ o = strideBundle m0 c.req k ∧ WordRight s o := Iff.rfl

/-- Only what a call holds for a stride on the block depends on the block. -/
theorem PhaseRight.mono {s t : State} {c d : ActiveCall} {m0 : Memory} {k : Nat} {p : Phase} (h : PhaseRight s c m0 k p)
    (hreq : d.req = c.req) (hshown : ∀ o, p = .shown o → WordRight s o → WordRight t o) : PhaseRight t d m0 k p := by
  cases p with
  | shown o =>
    obtain ⟨ho, hword⟩ := phaseRight_shown.1 h
    exact phaseRight_shown.2 ⟨hreq ▸ ho, hshown o rfl hword⟩
  | unread => trivial
  | read o => simpa only [PhaseRight, hreq] using h
  | taken w => simpa only [PhaseRight, hreq] using h

/-- With the same ports, registers and parameters the block shows the same words. -/
theorem WordRight.of_same {s t : State} {o : Bundle} (h : WordRight s o) (hdata : t.ports.data = s.ports.data)
    (hcfg : t.cfg = s.cfg) (hblock : SameBlock s t) : WordRight t o := by
  obtain ⟨hpix, hvld, hseen⟩ := hblock
  simpa only [WordRight, hdata, hcfg, hpix, hvld, hseen] using h

/-- Progress passes on to a state in which the call and the bytes of its range are as they were. -/
theorem State.Progress.of_frame {s t : State} {who : Caller} {m0 : Memory} (h : s.Progress who m0)
    (hcall : t.callOf who = s.callOf who) (hcfg : t.cfg = s.cfg)
    (hread : ∀ c, s.callOf who = some c → ∀ a, c.req.covers a = true → Memory.read t.mem a = Memory.read s.mem a)
    (hshown : ∀ c, s.callOf who = some c → ∀ e ∈ c.work, ∀ o, e.2 = .shown o → WordRight s o → WordRight t o) :
    t.Progress who m0 := by
  intro c hc
  rw [Option.mem_def, hcall] at hc
  obtain ⟨hbytes, hphases⟩ := h c hc
  refine ⟨fun k hk => ?_, fun e he => (hphases e he).mono rfl (hshown c hc e he)⟩
  have hsame : fourBytes t.mem (strideAddr c.req k) = fourBytes s.mem (strideAddr c.req k) := fourBytes_congr fun j hj =>
    hread c hc _ (HostCall.covers_stride hk (Nat.le_add_right _ _) (Nat.add_lt_add_left hj _))
  rw [hsame, hcfg]
  exact hbytes k hk

/-! ### The call's own moves -/

section
variable {s t : State} {who : Caller} {m0 : Memory} {c : ActiveCall} (h : s.Progress who m0) (hc : s.callOf who = some c)
include h hc

/-- A stride still to do has its original bytes, so that what the call reads now is what it would have read at first. -/
theorem State.Progress.strideBundle_eq {k : Nat} (hk : k ∈ c.left) (hlt : k < strideCount c.req) :
    strideBundle s.mem c.req k = strideBundle m0 c.req k := by
  have hbytes := (h c hc).1 k hlt
  rw [if_pos hk] at hbytes
  exact strideBundle_congr hbytes

/-- What the call holds for one of its strides is right. -/
theorem State.Progress.phaseRight {k : Nat} {p : Phase} (hp : c.phase k = some p) : PhaseRight s c m0 k p :=
  (h c hc).2 _ (ActiveCall.mem_of_phase hp)

/-- Progress passes on when a stride gets farther, if what the call now holds for it is right. -/
theorem State.Progress.of_put {k : Nat} {p : Phase} (ht : t.callOf who = some (c.put k p)) (hmem : t.mem = s.mem)
    (hcfg : t.cfg = s.cfg) (hp : PhaseRight t c m0 k p)
    (hshown : ∀ e ∈ c.work, ∀ o, e.2 = .shown o → WordRight s o → WordRight t o) : t.Progress who m0 := by
  intro d hd
  cases ht.symm.trans hd
  obtain ⟨hbytes, hphases⟩ := h c hc
  refine ⟨fun j hj => ?_, fun e he => ?_⟩
  · rw [hmem, hcfg, ActiveCall.put_left]
    exact hbytes j hj
  · rcases ActiveCall.mem_put he with rfl | he
    · exact hp.mono rfl fun o _ hw => hw
    · exact (hphases e he).mono rfl (hshown e he)

/-- Progress passes on when a stride is written: it has its packed bytes, and no other stride has changed. -/
theorem State.Progress.of_done {k : Nat} {w : Word} (hp : c.phase k = some (.taken w))
    (ht : t.callOf who = some (c.done k))
    (hmem : t.mem = Memory.writeWord s.cfg.hostByteOrder s.mem (strideAddr c.req k) w) (hcfg : t.cfg = s.cfg)
    (hshown : ∀ o, WordRight s o → WordRight t o) : t.Progress who m0 := by
  intro d hd
  cases ht.symm.trans hd
  obtain ⟨hbytes, hphases⟩ := h c hc
  have hw : w = packWord (strideBundle m0 c.req k) := h.phaseRight hc hp
  refine ⟨fun j hj => ?_, fun e he => (hphases e (ActiveCall.mem_done he)).mono rfl fun o _ => hshown o⟩
  rw [hmem, hcfg, ActiveCall.done_req, ActiveCall.done_left]
  by_cases hjk : j = k
  · subst hjk
    rw [fourBytes_writeWord, if_neg (by simp), hw]
  · have hsame : fourBytes (Memory.writeWord s.cfg.hostByteOrder s.mem (strideAddr c.req k) w) (strideAddr c.req j) =
        fourBytes s.mem (strideAddr c.req j) := fourBytes_congr fun i hi =>
      Memory.read_writeWord_outside _ _ _ _ (by simp only [strideAddr]; omega)
    have hleft : (j ∈ c.left.filter fun i => i != k) ↔ j ∈ c.left := by simp [hjk]
    simp only [hsame, hleft]
    exact hbytes j hj

/-- The word that the host takes while `out_valid = 1` is that of the bundle it has presented (R98). -/
theorem State.Progress.taken_eq {k : Nat} {o : Bundle} {w : Word} (hp : c.phase k = some (.shown o))
    (hv : s.outValid = .ok true) (hw : s.pixOut = .ok w) : w = packWord (strideBundle m0 c.req k) := by
  obtain ⟨ho, hdata, hreg⟩ := phaseRight_shown.1 (h.phaseRight hc hp)
  rw [← ho]
  rcases outputs_cases s with ⟨hv', -⟩ | ⟨hv', hw', hs, hr⟩ | ⟨-, hw', -⟩
  · rw [hv] at hv'; cases hv'
  · cases hw.symm.trans hw'
    exact hreg hs (Except.ok.inj (hv'.symm.trans hv)) hr
  · cases hw.symm.trans hw'
    rw [hdata]

/-- After it is presented, a stride's bundle is on the ports, and its word in the single-cycle variant's registers. -/
theorem State.Progress.of_presented {k : Nat} {o : Bundle} (hp : c.phase k = some (.read o)) (hb : c.busy = false)
    (hwho : who = .host) : ((presented o s).setCall .host (some (c.put k (.shown o)))).Progress who m0 := by
  subst hwho
  obtain ⟨hcfg, hmem, -⟩ := presented_keeps o s
  refine h.of_put hc (k := k) (p := .shown o) rfl hmem hcfg (phaseRight_shown.2 ⟨h.phaseRight hc hp, ?word⟩) ?others
  case word =>
    refine ⟨congrArg Ports.data (presented_ports o s), fun hs _ _ => ?_⟩
    rw [State.setCall_cfg, hcfg] at hs
    exact (presented_registers o hs).1
  case others =>
    rintro e he o' ho' -
    have hidle := ActiveCall.busy_eq_false.1 hb e he
    rw [ho'] at hidle
    cases hidle

end

/-- A caller's call set, where one is in progress. -/
theorem State.callOf_setCall_self {s : State} {who : Caller} {c : ActiveCall} (hc : s.callOf who = some c)
    (d : Option ActiveCall) : (s.setCall who d).callOf who = d := by
  rw [State.callOf_setCall _ _ _ _ (hc ▸ Option.some_ne_none c), if_pos rfl]

/-- The block shows the same words whatever becomes of calls. -/
theorem wordRight_setCall {s t : State} (hdata : t.ports.data = s.ports.data) (hcfg : t.cfg = s.cfg)
    (hblock : SameBlock s t) (who : Caller) (d : Option ActiveCall) (o : Bundle) (h : WordRight s o) : WordRight (t.setCall who d) o :=
  h.of_same ((congrArg Ports.data (State.setCall_ports ..)).trans hdata) ((State.setCall_cfg ..).trans hcfg)
    (hblock.trans (sameBlock_setCall ..))

theorem callOf_writeStride {s : State} {who : Caller} {c : ActiveCall} (hc : s.callOf who = some c) (k : Nat) (w : Word) :
    (writeStride who c k w s).callOf who = some (c.done k) := by
  have hc' : ∀ m, (s.setMem m).callOf who = some c := fun _ => hc
  exact State.callOf_setCall_self (hc' _) _

theorem wordRight_writeStride (s : State) (who : Caller) (c : ActiveCall) (k : Nat) (w : Word) (o : Bundle)
    (h : WordRight s o) : WordRight (writeStride who c k w s) o := by
  have hset : ∀ m, WordRight (s.setMem m) o := fun _ => h
  exact wordRight_setCall rfl rfl (.refl _) who _ o (hset _)

section
variable {s t : State} {who : Caller} {m0 : Memory} {c : ActiveCall} (h : s.Progress who m0) (hc : s.callOf who = some c)
include h hc

/-- A move of one of its strides keeps a call's progress. -/
theorem State.Progress.moveStride (hsound : c.Sound) {k : Nat} (hm : moveStride who c k s = .next t) :
    t.Progress who m0 := by
  have kept : ∀ d e o, WordRight s o → WordRight (s.setCall d e) o := fun d e o =>
    wordRight_setCall rfl rfl (.refl s) d e o
  rcases moveStride_next hm with ⟨-, rfl⟩ | ⟨hp, rfl⟩ | ⟨o, hp, -, rfl⟩ | ⟨o, hp, hw, hs⟩ | ⟨o, hp, hw, hs⟩ | ⟨w, hp, rfl⟩
  · exact h
  · have hleft : k ∈ c.left := ActiveCall.mem_left_of_phase hp
    obtain ⟨-, -, hstride, -⟩ := hsound
    exact h.of_put hc (State.callOf_setCall_self hc _) (State.setCall_mem ..) (State.setCall_cfg ..)
      (h.strideBundle_eq hc hleft (hstride k hleft)) fun _ _ o _ => kept who _ o
  · have ho : o = strideBundle m0 c.req k := by
      rcases hp with hp | hp
      · exact h.phaseRight hc hp
      · exact (phaseRight_shown.1 (h.phaseRight hc hp)).1
    exact h.of_put hc (State.callOf_setCall_self hc _) (State.setCall_mem ..) (State.setCall_cfg ..)
      (congrArg packWord ho) fun _ _ o _ => kept who _ o
  · rcases showStride_next hs with ⟨-, rfl⟩ | ⟨hb, u, hu, rfl⟩
    · exact h
    · obtain ⟨-, rfl⟩ := exec_next hu
      exact h.of_presented hc hp hb hw
  · subst hw
    rcases takeStride_next hs with ⟨-, rfl⟩ | ⟨w, hv, hpix, rfl⟩
    · exact h.of_put hc (State.callOf_setCall_self hc _) (State.setCall_mem ..) (State.setCall_cfg ..)
        (phaseRight_shown.1 (h.phaseRight hc hp)).1 fun _ _ o _ => kept .host _ o
    · exact h.of_put hc (State.callOf_setCall_self (s := s.setPorts _) hc _) rfl rfl (h.taken_eq hc hp hv hpix)
        fun _ _ o _ => wordRight_setCall (t := s.setPorts _) rfl rfl (.refl s) .host _ o
  · exact h.of_done hc hp (callOf_writeStride hc k w) (State.setCall_mem ..) (State.setCall_cfg ..)
      (wordRight_writeStride s who c k w)

/-- Every change of a call by its caller keeps its progress. -/
theorem CallStep.progress {op : Option Instr} (hsound : c.Sound) (hstep : CallStep who c op s t) : t.Progress who m0 := by
  cases hstep with
  | returns _ _ ht =>
    subst ht
    intro d hd
    rw [State.callOf_setCall_self hc] at hd
    cases hd
  | moves k _ ht => exact h.moveStride hc hsound ht
  | beside k o hw hp _ ht =>
    subst ht
    exact h.of_put hc (State.callOf_setCall_self hc _) (State.setCall_mem ..) (State.setCall_cfg ..)
      (congrArg packWord (h.phaseRight hc hp)) fun _ _ o _ => wordRight_setCall rfl rfl (.refl s) who _ o
  | picks k hw _ ht =>
    subst ht
    intro d hd
    rw [State.callOf_setCall_self hc] at hd
    cases hd
    obtain ⟨hbytes, hphases⟩ := h c hc
    have hleft : ∀ j, j ∈ (c.pick k).left ↔ j ∈ c.left := fun j => (c.pick_left k).mem_iff
    refine ⟨fun j hj => ?_, fun e he => ?_⟩
    · simp only [State.setCall_mem, State.setCall_cfg, ActiveCall.pick_req, hleft]
      exact hbytes j hj
    · exact (hphases e ((c.pick_perm k).mem_iff.1 he)).mono rfl fun o _ => wordRight_setCall rfl rfl (.refl s) who _ o

end

/-! ### What comes between the call's moves -/

/-- Without a move of a call the host presents nothing. -/
theorem hostOperation_of_mover_none {s : State} (hm : mover s = none) : hostOperation s = none := by
  rcases hc : s.call with _ | c
  · simp only [hostOperation, hc]
  · have hstride : hostStride s = none := by
      rcases ha : s.agenda with _ | ⟨e, rest⟩
      · simp [mover, ha, hc] at hm
      · cases e with
        | stride who k => simp [mover, ha] at hm
        | _ => simp_all [mover, hostStride, Event.waits]
    simp only [hostOperation, hc, hstride]

/-- An instant of the block that is no move of a call performs what the ports select, or is a RESET edge. -/
theorem operation_of_mover_none {s : State} {i : Instr} (hn : nextOperation s = some i) (hm : mover s = none) :
    i = selected s.cfg.registered s.ports ∨ i = .reset s.ports.inValid := by
  unfold nextOperation at hn
  split at hn
  · exact .inl (Option.some.inj hn).symm
  · exact .inl (Option.some.inj hn).symm
  · exact .inr (Option.some.inj hn).symm
  · rw [hostOperation_of_mover_none hm] at hn
    cases hn

/-- Such an instant keeps the word of the bundle on the ports right: CAPTURE stores that word, IDLE and RESET leave
`vld_q` at 0, and PACK leaves the bundle. -/
theorem WordRight.effect {s : State} {o : Bundle} (h : WordRight s o) {i : Instr}
    (hi : i = selected s.cfg.registered s.ports ∨ i = .reset s.ports.inValid) : WordRight (effect i s) o := by
  obtain ⟨hdata, -⟩ := h
  rcases hi with rfl | rfl
  · cases hreg : s.cfg.registered with
    | combinational =>
      rw [selected_combinational]
      exact ⟨hdata, fun hs => absurd (hreg.symm.trans hs) (by decide)⟩
    | singleCycle =>
      cases hr : s.ports.rst with
      | true =>
        rw [selected_reset hr]
        exact ⟨hdata, fun _ hvld => absurd hvld Bool.false_ne_true⟩
      | false =>
        cases hv : s.ports.inValid with
        | true =>
          rw [selected_capture hr hv]
          exact ⟨hdata, fun _ _ _ => congrArg packWord hdata⟩
        | false =>
          rw [selected_idle hr hv]
          exact ⟨hdata, fun _ hvld => absurd hvld Bool.false_ne_true⟩
  · exact ⟨hdata, fun _ hvld => absurd hvld Bool.false_ne_true⟩

/-- A loss of power leaves no word to be read (R124). -/
theorem WordRight.losePower {s : State} {o : Bundle} (h : WordRight s o) : WordRight s.losePower o := by
  cases hs : s.cfg.registered with
  | combinational => rwa [State.losePower_combinational s hs]
  | singleCycle =>
    refine ⟨by rw [State.losePower_ports]; exact h.1, fun _ _ hseen => ?_⟩
    rw [State.losePower_resetSeen s hs] at hseen
    cases hseen

/-- No call of another agent has a stride on this block. -/
theorem State.Inv.not_shown {s : State} (hs : s.Inv) {who : Caller} {c : ActiveCall} (hc : s.callOf who = some c)
    (hw : who ≠ .host) {e : Nat × Phase} (he : e ∈ c.work) (o : Bundle) : e.2 ≠ .shown o := by
  intro ho
  have hidle := ActiveCall.busy_eq_false.1 (hs.not_busy hc hw) e he
  rw [ho] at hidle
  cases hidle

/-- A move of another agent's call leaves this block and its ports. -/
theorem moveStride_other_block {n : Nat} {c : ActiveCall} {k : Nat} {s t : State}
    (h : moveStride (.other n) c k s = .next t) : t.ports = s.ports ∧ SameBlock s t := by
  rcases moveStride_next h with ⟨-, rfl⟩ | ⟨-, rfl⟩ | ⟨o, -, -, rfl⟩ | ⟨o, -, hw, -⟩ | ⟨o, -, hw, -⟩ | ⟨w, -, rfl⟩
  · exact ⟨rfl, .refl _⟩
  · exact ⟨rfl, .refl s⟩
  · exact ⟨rfl, .refl s⟩
  · cases hw
  · cases hw
  · exact ⟨rfl, .refl s⟩

/-- So does every change of another agent's call. -/
theorem CallStep.block_of_other {n : Nat} {c : ActiveCall} {op : Option Instr} {s t : State}
    (h : CallStep (.other n) c op s t) : t.ports = s.ports ∧ SameBlock s t := by
  cases h with
  | returns _ _ ht => subst ht; exact ⟨rfl, .refl s⟩
  | moves k _ ht => exact moveStride_other_block ht
  | beside k o hw _ _ _ => cases hw
  | picks k hw _ _ => cases hw

/-- Only the host's own event changes the ports. -/
theorem EventEffect.ports_eq {e : Event} {s t : State} (h : EventEffect s t e) (hdrive : ∀ p, e ≠ .drive p) :
    t.ports = s.ports := by
  cases h with
  | drive p _ => exact absurd rfl (hdrive p)
  | readOut h => rcases readOutputs_next h with ⟨-, rfl⟩ | ⟨w, -, -, rfl⟩ <;> rfl
  | call c h => obtain ⟨-, rfl⟩ := startCall_next h; rfl
  | otherCall c h => obtain ⟨-, rfl⟩ := startOther_next h; rfl
  | otherRead a _ ht => subst ht; rfl
  | otherWrite a v _ ht => subst ht; rfl
  | terminate who ht =>
    subst ht
    rcases terminateCall_cases who s with ⟨-, heq⟩ | ⟨c, vs, -, -, heq⟩
    · rw [heq]
    · rw [heq]; exact State.setCall_ports ..
  | powerLoss ht => subst ht; exact State.losePower_ports s
  | idle _ _ ht => subst ht; rfl

/-- An event that is no operation keeps the words shown right, unless it drives the ports. -/
theorem EventEffect.wordRight {e : Event} {s t : State} (h : EventEffect s t e) (hdrive : ∀ p, e ≠ .drive p) {o : Bundle}
    (hw : WordRight s o) : WordRight t o := by
  by_cases hpower : e = .powerLoss
  · subst hpower
    cases h with
    | powerLoss ht => subst ht; exact hw.losePower
    | idle _ hp _ => exact absurd rfl hp
  · obtain ⟨hcfg, hblock⟩ := h.blockStep
    exact hw.of_same (congrArg Ports.data (h.ports_eq hdrive)) hcfg (hblock hpower)

/-- An event that is no operation and no move of a call by its caller does nothing, ends a call, or is nobody's move. -/
theorem EventEffect.mover_cases {e : Event} {rest : List Event} {s t : State} (ha : s.agenda = e :: rest)
    (hw : s.call = none ∨ e.waits = false) (h : EventEffect (s.setAgenda rest) t e) :
    t = s.setAgenda rest ∨ (∃ who, e = .terminate who) ∨ mover s = none := by
  cases h with
  | idle _ _ ht => exact .inl ht
  | terminate who _ => exact .inr (.inl ⟨who, rfl⟩)
  | _ =>
    refine .inr (.inr ?_)
    rcases hc : s.call with _ | c <;> simp_all [mover, Event.waits]

/-! ### The step -/

section
variable {s t : State} {who : Caller} {m0 : Memory} {c : ActiveCall} (hs : s.Inv) (h : s.Progress who m0)
  (hc : s.callOf who = some c) (hstep : step s = .next t)
include hs h hc hstep

/-- A step that is no move of a call keeps its progress, if the block goes on showing its word. -/
theorem State.Progress.of_step (hmover : mover s ≠ some who)
    (hshown : ∀ e ∈ c.work, ∀ o, e.2 = .shown o → WordRight s o → WordRight t o) : t.Progress who m0 :=
  h.of_frame (step_callOf hstep (hc ▸ Option.some_ne_none c) hmover) (parametersNeverChange s t hstep)
    (fun _ hd _ ha => step_read_of_covers hs hstep hd hmover ha)
    fun _ hd => by cases hc.symm.trans hd; exact hshown

/-- Every step keeps a call's progress. -/
theorem step_progress : t.Progress who m0 := by
  cases step_next hstep with
  | operation i es hn hm _ hexec =>
    obtain ⟨-, rfl⟩ := exec_next hexec
    have hselected := operation_of_mover_none hn hm
    exact h.of_step hs hc hstep (by simp [hm]) fun _ _ _ _ hw => WordRight.effect (s := s.setAgenda es) hw hselected
  | call who' c' es hc' hm _ hcall =>
    by_cases hw : who' = who
    · subst hw
      cases hc.symm.trans hc'
      have h' : (s.setAgenda es).Progress who' m0 := h
      exact CallStep.progress h' hc (hs.sound hc) hcall
    · refine h.of_step hs hc hstep (by simp [hm, hw]) fun e he o ho hword => ?_
      cases who' with
      | host => exact absurd ho (hs.not_shown hc (Ne.symm hw) he o)
      | other n =>
        obtain ⟨hports, hblock⟩ := hcall.block_of_other
        exact hword.of_same (congrArg Ports.data hports) (parametersNeverChange s t hstep) hblock
  | event e rest ha hwait _ heffect =>
    have hshown : ∀ x ∈ c.work, ∀ o, x.2 = .shown o → WordRight s o → WordRight t o := by
      intro x hx o ho hword
      by_cases hdrive : ∃ p, e = .drive p
      · obtain ⟨p, rfl⟩ := hdrive
        have hnone : s.call = none := by simpa [Event.waits] using hwait
        have hother : who ≠ .host := by rintro rfl; cases hnone.symm.trans hc
        exact absurd ho (hs.not_shown hc hother hx o)
      · exact heffect.wordRight (fun p hp => hdrive ⟨p, hp⟩) (s := s.setAgenda rest) hword
    rcases heffect.mover_cases ha hwait with rfl | ⟨who', rfl⟩ | hm
    · exact h
    · by_cases hw : who' = who
      · subst hw
        obtain ⟨u, hu, hover, -⟩ := terminationLeavesAnyBytes s who' c rest hc ha
        cases hstep.symm.trans hu
        intro d hd
        cases hover.symm.trans hd
      · exact h.of_step hs hc hstep (by simp [mover, ha, hw]) hshown
    · exact h.of_step hs hc hstep (by simp [hm]) hshown

end

/-- A call that is over after a step, and was not ended from outside, had nothing left to do, and the step changed no
byte. -/
theorem step_returns_cases {s t : State} {who : Caller} {c : ActiveCall} (hstep : step s = .next t)
    (hc : s.callOf who = some c) (hover : t.callOf who = none) (hhead : s.agenda.head? ≠ some (.terminate who)) :
    c.work = [] ∧ t.mem = s.mem := by
  have changed : ∀ w d, (∀ v, t.callOf v = if v = w then d else s.callOf v) → w = who ∧ d = none := by
    intro w d hcalls
    by_cases hw : who = w
    · exact ⟨hw.symm, by rw [← hover, hcalls, if_pos hw]⟩
    · rw [hcalls, if_neg hw, hc] at hover
      cases hover
  cases step_callsChange hstep with
  | same hcalls _ => rw [hcalls, hc] at hover; cases hover
  | wrote _ _ _ _ hcalls _ => rw [hcalls, hc] at hover; cases hover
  | begun w d _ _ hcalls _ => cases (changed w _ hcalls).2
  | ended w d vs _ hend _ hcalls _ => exact absurd ((changed w _ hcalls).1 ▸ hend) hhead
  | moved w c' d hc' _ hcalls _ hreturn hmem =>
    obtain ⟨rfl, hd⟩ := changed w d hcalls
    cases hc.symm.trans hc'
    refine ⟨hreturn hd, hmem.resolve_right ?_⟩
    rintro ⟨k, x, hk, -⟩
    simp [ActiveCall.phase, hreturn hd] at hk

/-- A call begins with every stride to do. -/
theorem progress_of_begun {s : State} {who : Caller} {c : HostCall} (hc : s.callOf who = some c.begun) :
    s.Progress who s.mem := by
  intro d hd
  cases hc.symm.trans hd
  refine ⟨fun k hk => ?_, fun e he => ?_⟩
  · rw [if_pos (by rw [HostCall.begun_left]; exact List.mem_range.2 hk)]
  · rw [HostCall.begun_phase he]
    trivial

/-- A call that is in progress after a step, and was not before it, has just begun. -/
theorem step_begins {s t : State} {who : Caller} (hnone : s.callOf who = none) (hstep : step s = .next t)
    (hsome : t.callOf who ≠ none) : t.mem = s.mem ∧ ∃ c : HostCall, t.callOf who = some c.begun := by
  have changed : ∀ w d, (∀ v, t.callOf v = if v = w then d else s.callOf v) → w = who := by
    intro w d hcalls
    by_contra hw
    exact hsome (by rw [hcalls, if_neg (Ne.symm hw), hnone])
  cases step_callsChange hstep with
  | same hcalls _ => exact absurd (hcalls who ▸ hnone) hsome
  | wrote _ _ _ _ hcalls _ => exact absurd (hcalls who ▸ hnone) hsome
  | begun w c _ _ hcalls hmem =>
    cases changed w _ hcalls
    exact ⟨hmem, c, by rw [hcalls, if_pos rfl]⟩
  | ended w c _ hc _ _ hcalls _ =>
    cases changed w _ hcalls
    cases hnone.symm.trans hc
  | moved w c _ hc _ hcalls _ _ _ =>
    cases changed w _ hcalls
    cases hnone.symm.trans hc

/-- Settles O54: every step keeps the progress of a call, which begins with all its strides to do and returns with none. -/
theorem hostCallProgress : Obligations.HostCallProgress := by
  refine ⟨fun s t who m0 hs h hcall hstep => ?keeps, fun s t who hnone hstep hsome => ?begins,
    fun s c k rest hc ha hk hb => ?choose⟩
  case keeps =>
    obtain ⟨c, hc⟩ := Option.ne_none_iff_exists'.1 hcall
    refine ⟨step_progress hs h hc hstep, fun d hd hover hhead => ?_⟩
    obtain ⟨hwork, hmem⟩ := step_returns_cases hstep hd hover hhead
    refine ⟨hmem, fun k hk => ?_⟩
    have hbytes := (h d hd).1 k hk
    rw [if_neg (by simp [ActiveCall.left, hwork])] at hbytes
    rw [hmem, parametersNeverChange s t hstep, hbytes]
  case begins =>
    obtain ⟨hmem, c, hc⟩ := step_begins hnone hstep hsome
    exact hmem ▸ progress_of_begun hc
  case choose =>
    have hs : step s = .next ((s.setAgenda rest).setCall .host (some (c.pick k))) := by
      rw [step_event ha (.inr rfl), handle, State.setAgenda_call, hc]
      rfl
    exact ⟨_, c.pick k, hs, rfl, ActiveCall.pick_next hb hk, rfl, c.pick_perm k⟩

end Sys2Proof.Machine
end

section
/-! PROOF. A call that nobody disturbs: the four moves of each stride, and the run of all of them (42_buffer_composition.md
sections 2 and 3, 70_reset_and_hazards.md section 3). -/

namespace Sys2Proof.Machine

/-- Strides of which no byte is read. -/
def unreadStrides (ks : List Nat) : List (Nat × Phase) := ks.map fun k => (k, .unread)

/-- A call that has got so far with its first stride and has read no other. -/
def firstAt (c : HostCall) (k : Nat) (p : Phase) (ks : List Nat) : ActiveCall := ⟨c, (k, p) :: unreadStrides ks⟩

theorem unreadStrides_not_shown {ks : List Nat} {e : Nat × Phase} (h : e ∈ unreadStrides ks) : e.2.isShown = false := by
  obtain ⟨k, -, rfl⟩ := List.mem_map.1 h
  rfl

theorem firstAt_phase (c : HostCall) (k : Nat) (p : Phase) (ks : List Nat) : (firstAt c k p ks).phase k = some p := by
  simp [firstAt, ActiveCall.phase]

theorem firstAt_busy (c : HostCall) (k : Nat) (p : Phase) (ks : List Nat) : (firstAt c k p ks).busy = p.isShown := by
  have hrest : (unreadStrides ks).any (fun e => e.2.isShown) = false :=
    List.any_eq_false.2 fun e he => by simp [unreadStrides_not_shown he]
  simp [firstAt, ActiveCall.busy, hrest]

/-- The first stride is the one the call moves, on the block or not. -/
theorem firstAt_next (c : HostCall) (k : Nat) (p : Phase) (ks : List Nat) : (firstAt c k p ks).next = some k := by
  cases hp : p.isShown with
  | true => simp [firstAt, ActiveCall.next, hp]
  | false => rw [ActiveCall.next_of_idle (by rw [firstAt_busy, hp])]; rfl

section
variable {k : Nat} {ks : List Nat} (hk : k ∉ ks)
include hk

theorem firstAt_put (c : HostCall) (p q : Phase) : (firstAt c k p ks).put k q = firstAt c k q ks := by
  have hrest : (unreadStrides ks).map (fun e => if e.1 = k then (k, q) else e) = unreadStrides ks := by
    rw [unreadStrides, List.map_map]
    exact List.map_congr_left fun j hj => if_neg fun hjk : j = k => hk (hjk ▸ hj)
  simp [firstAt, ActiveCall.put, hrest]

theorem firstAt_done (c : HostCall) (p : Phase) : (firstAt c k p ks).done k = ⟨c, unreadStrides ks⟩ := by
  have hrest : (unreadStrides ks).filter (fun e => e.1 != k) = unreadStrides ks := by
    refine List.filter_eq_self.2 fun e he => ?_
    obtain ⟨j, hj, rfl⟩ := List.mem_map.1 he
    simpa using fun hjk : j = k => hk (hjk ▸ hj)
  simp [firstAt, ActiveCall.done, hrest]

end

/-- What the moves of an undisturbed call leave alone, besides the bytes outside its strides. -/
structure CallAlone (s t : State) : Prop where
  cfg : t.cfg = s.cfg
  others : t.others = s.others
  agenda : t.agenda = s.agenda
  resetSeen : t.resetSeen = s.resetSeen

theorem CallAlone.trans {s t u : State} (h : CallAlone s t) (h' : CallAlone t u) : CallAlone s u :=
  ⟨h'.cfg.trans h.cfg, h'.others.trans h.others, h'.agenda.trans h.agenda, h'.resetSeen.trans h.resetSeen⟩

/-- The outputs may be read: in the single-cycle variant a RESET has come (R98). -/
def Readable (s : State) : Prop := s.cfg.registered = .singleCycle → s.resetSeen = true

theorem Readable.of_alone {s t : State} (h : Readable s) (halone : CallAlone s t) : Readable t := by
  rw [Readable, halone.cfg, halone.resetSeen]
  exact h

/-- A stride presented to a block that may be read is on its outputs, as a valid word. -/
theorem presented_outputs (o : Bundle) {s : State} (hr : Readable s) :
    (presented o s).outValid = .ok true ∧ (presented o s).pixOut = .ok (packWord o) := by
  obtain ⟨hcfg, -, -, -, hseen, -⟩ := presented_keeps o s
  cases hv : s.cfg.registered with
  | combinational =>
    have hvar : (presented o s).cfg.registered = .combinational := by rw [hcfg, hv]
    rw [State.outValid_of_combinational hvar, State.pixOut_of_combinational hvar, presented_ports]
    exact ⟨rfl, rfl⟩
  | singleCycle =>
    have hvar : (presented o s).cfg.registered = .singleCycle := by rw [hcfg, hv]
    have hread : (presented o s).resetSeen = true := by rw [hseen, hr hv]
    obtain ⟨hpix, hvld⟩ := presented_registers o hv
    rw [State.outValid_of_resetSeen hvar hread, State.pixOut_of_resetSeen hvar hread, hpix, hvld]
    exact ⟨rfl, rfl⟩

/-! ### The four moves -/

section
variable {s : State} {c : HostCall} {k : Nat} {ks : List Nat} (ha : s.agenda = [])
include ha

/-- With no event to come the call moves its first stride. -/
theorem step_first {p : Phase} (hc : s.call = some (firstAt c k p ks)) :
    step s = moveStride .host (firstAt c k p ks) k s ∧ nextOperation s = strideOperation (firstAt c k p ks) k s := by
  refine ⟨?step, nextOperation_of_hostStride hc ?stride⟩
  case step => rw [step_host ha hc, hostMove, firstAt_next]
  case stride => simp only [hostStride, ha, hc, firstAt_next]

variable (hk : k ∉ ks)
include hk

theorem step_first_unread (hc : s.call = some (firstAt c k .unread ks)) :
    ∃ t, step s = .next t ∧ nextOperation s = none ∧ CallAlone s t ∧ t.mem = s.mem ∧
      t.call = some (firstAt c k (.read (strideBundle s.mem c k)) ks) := by
  obtain ⟨hstep, hop⟩ := step_first ha hc
  have hp := firstAt_phase c k .unread ks
  rw [moveStride_unread hp] at hstep
  rw [strideOperation_eq_none fun o => by simp [hp]] at hop
  exact ⟨_, hstep, hop, ⟨rfl, rfl, rfl, rfl⟩, rfl, congrArg some (firstAt_put hk c _ _)⟩

theorem step_first_read {o : Bundle} (hr : Readable s) (hc : s.call = some (firstAt c k (.read o) ks)) :
    ∃ t, step s = .next t ∧ nextOperation s = some (selected s.cfg.registered ⟨o, true, false⟩) ∧ CallAlone s t ∧
      t.mem = s.mem ∧ t.call = some (firstAt c k (.shown o) ks) ∧ t.outValid = .ok true ∧
      t.pixOut = .ok (packWord o) := by
  obtain ⟨hstep, hop⟩ := step_first ha hc
  have hp := firstAt_phase c k (.read o) ks
  have hb := firstAt_busy c k (.read o) ks
  rw [moveStride_read hp, showStride_of_idle hb] at hstep
  rw [strideOperation_of_read hp, hb] at hop
  obtain ⟨hcfg, hmem, hothers, hagenda, hseen, -⟩ := presented_keeps o s
  obtain ⟨hv, hw⟩ := presented_outputs o hr
  exact ⟨_, hstep, hop, ⟨hcfg, hothers, hagenda, hseen⟩, hmem, congrArg some (firstAt_put hk c _ _), hv, hw⟩

theorem step_first_shown {o : Bundle} {w : Word} (hc : s.call = some (firstAt c k (.shown o) ks))
    (hv : s.outValid = .ok true) (hw : s.pixOut = .ok w) :
    ∃ t, step s = .next t ∧ nextOperation s = none ∧ CallAlone s t ∧ t.mem = s.mem ∧
      t.call = some (firstAt c k (.taken w) ks) := by
  obtain ⟨hstep, hop⟩ := step_first ha hc
  have hp := firstAt_phase c k (.shown o) ks
  rw [moveStride_shown hp, takeStride_of_valid hv hw] at hstep
  rw [strideOperation_eq_none fun o => by simp [hp]] at hop
  exact ⟨_, hstep, hop, ⟨rfl, rfl, rfl, rfl⟩, rfl, congrArg some (firstAt_put hk c _ _)⟩

theorem step_first_taken {w : Word} (hc : s.call = some (firstAt c k (.taken w) ks)) :
    ∃ t, step s = .next t ∧ nextOperation s = none ∧ CallAlone s t ∧
      t.mem = Memory.writeWord s.cfg.hostByteOrder s.mem (strideAddr c k) w ∧ t.call = some ⟨c, unreadStrides ks⟩ := by
  obtain ⟨hstep, hop⟩ := step_first ha hc
  have hp := firstAt_phase c k (.taken w) ks
  rw [moveStride_taken hp] at hstep
  rw [strideOperation_eq_none fun o => by simp [hp]] at hop
  exact ⟨_, hstep, hop, ⟨rfl, rfl, rfl, rfl⟩, rfl, congrArg some (firstAt_done hk c _)⟩

/-- The four moves of a stride: one operation, and the stride packed. -/
theorem run_first_stride (hr : Readable s) (hc : s.call = some ⟨c, unreadStrides (k :: ks)⟩) :
    ∃ t, CallAlone s t ∧ t.mem = packStride s.cfg.hostByteOrder c s.mem k ∧ t.call = some ⟨c, unreadStrides ks⟩ ∧
      ∀ n, Host.Core.run core (n + 4) s = Host.Core.run core n t ∧
        operations (n + 4) s = selected s.cfg.registered ⟨strideBundle s.mem c k, true, false⟩ :: operations n t := by
  obtain ⟨t1, h1, hop1, ha1, hm1, hc1⟩ := step_first_unread ha hk hc
  obtain ⟨t2, h2, hop2, ha2, hm2, hc2, hv, hw⟩ := step_first_read (ha1.agenda.trans ha) hk (hr.of_alone ha1) hc1
  have ha12 := ha1.trans ha2
  obtain ⟨t3, h3, hop3, ha3, hm3, hc3⟩ := step_first_shown (ha12.agenda.trans ha) hk hc2 hv hw
  have ha13 := ha12.trans ha3
  obtain ⟨t4, h4, hop4, ha4, hm4, hc4⟩ := step_first_taken (ha13.agenda.trans ha) hk hc3
  refine ⟨t4, ha13.trans ha4, ?mem, hc4, fun n => ⟨?run, ?operations⟩⟩
  case mem => rw [hm4, ha13.cfg, hm3, hm2, hm1]; rfl
  case run => rw [run_succ h1, run_succ h2, run_succ h3, run_succ h4]
  case operations =>
    rw [operations_succ h1, operations_succ h2, operations_succ h3, operations_succ h4, hop1, hop2, hop3, hop4, ha1.cfg]
    rfl

end

/-! ### The call -/

/-- Packing one stride leaves the bundle of every other. -/
theorem strideBundle_packStride_ne (order : ByteOrder) (c : HostCall) (m : Memory) {j k : Nat} (h : j ≠ k) :
    strideBundle (packStride order c m k) c j = strideBundle m c j :=
  strideBundle_congr <| fourBytes_congr fun i hi => read_packStride order c m (by simp only [strideAddr]; omega)

/-- The strides that an undisturbed call has still to do are packed, with one operation each, and then it returns. -/
theorem run_strides {s : State} {c : HostCall} {ks : List Nat} (hks : ks.Nodup) (ha : s.agenda = []) (hr : Readable s)
    (hc : s.call = some ⟨c, unreadStrides ks⟩) :
    ∃ t, Host.Core.run core (4 * ks.length + 1) s = .next t ∧ CallAlone s t ∧ t.call = none ∧
      t.mem = packStrides s.cfg.hostByteOrder c s.mem ks ∧
      operations (4 * ks.length + 1) s = ks.map fun k => selected s.cfg.registered ⟨strideBundle s.mem c k, true, false⟩ := by
  induction ks generalizing s with
  | nil =>
    have hstep := step_returns ha hc rfl
    have hop : nextOperation s = none := by
      simp only [nextOperation, hostOperation, hostStride, ha, hc]
      rfl
    refine ⟨_, run_succ hstep, ⟨rfl, rfl, rfl, rfl⟩, rfl, rfl, ?_⟩
    rw [List.length_nil, operations_succ hstep, hop]
    rfl
  | cons k ks ih =>
    obtain ⟨hk, hks⟩ := List.nodup_cons.1 hks
    obtain ⟨t, halone, hmem, hcall, hmoves⟩ := run_first_stride ha hk hr hc
    obtain ⟨u, hrun, halone', hcall', hmem', hops⟩ := ih hks (halone.agenda.trans ha) (hr.of_alone halone) hcall
    have hlen : 4 * (k :: ks).length + 1 = 4 * ks.length + 1 + 4 := by rw [List.length_cons]; omega
    obtain ⟨hrun4, hops4⟩ := hmoves (4 * ks.length + 1)
    refine ⟨u, ?run, halone.trans halone', hcall', ?mem, ?operations⟩
    case run => rw [hlen, hrun4, hrun]
    case mem => rw [hmem', halone.cfg, hmem]; rfl
    case operations =>
      rw [hlen, hops4, hops, halone.cfg, List.map_cons]
      congr 1
      refine List.map_congr_left fun j hj => ?_
      rw [hmem, strideBundle_packStride_ne _ _ _ fun hjk : j = k => hk (hjk ▸ hj)]

/-- A call that may begin and that nobody disturbs returns, and has done what the loop of R96 does. -/
theorem run_hostCall {s : State} {c : HostCall} (hc : s.call = none) (ha : s.agenda = [.call c]) (hpre : c.precheck = none)
    (hdisjoint : ∀ d ∈ s.running, c.overlaps d = false) (hr : Readable s) :
    ∃ t, Host.Core.run core (4 * strideCount c + 2) s = .next t ∧ t.call = none ∧ t.agenda = [] ∧ t.others = s.others ∧
      t.mem = hostPackMem s.cfg.hostByteOrder c s.mem ∧
      operations (4 * strideCount c + 2) s = (List.range (strideCount c)).map fun k =>
        selected s.cfg.registered ⟨strideBundle s.mem c k, true, false⟩ := by
  have hstep := step_call hc ha (turnsAway_eq_none.2 ⟨hpre, hdisjoint⟩)
  have hop : nextOperation s = none := by simp only [nextOperation, hostOperation, ha, hc]
  obtain ⟨t, hrun, halone, hcall, hmem, hops⟩ := run_strides
    (s := (s.setAgenda []).setCall .host (some c.begun)) List.nodup_range rfl hr rfl
  rw [List.length_range] at hrun hops
  refine ⟨t, (run_succ hstep).trans hrun, hcall, halone.agenda, halone.others, hmem, ?operations⟩
  rw [operations_succ hstep, hop]
  exact hops

/-- Settles O52: the memory is that of the loop, stride by stride. -/
theorem hostPackFinalContents : Obligations.HostPackFinalContents := by
  intro s c hc ha hmod hbase hcap hdisjoint hr
  have hpre : c.precheck = none := by
    rw [HostCall.precheck, if_neg (by omega), if_neg (by omega), if_neg (by omega), if_neg (by omega)]
  obtain ⟨t, hrun, hcall, hagenda, hothers, hmem, -⟩ := run_hostCall hc ha hpre hdisjoint hr
  refine ⟨t, hrun, hcall, hagenda, hothers, fun k hk => ?stride, fun a ha => ?outside⟩
  case stride => rw [hmem]; exact fourBytes_hostPackMem _ c s.mem hk
  case outside =>
    rw [hmem]
    refine read_hostPackMem_outside _ c s.mem fun k hk => ?_
    simp only [strideCount, strideAddr] at *
    omega

/-- Settles O53: the operation selected for a stride presented is PACK or CAPTURE of its bundle. -/
theorem oneOperationPerStride : Obligations.OneOperationPerStride := by
  intro s c hc ha hpre hdisjoint hr
  obtain ⟨t, -, -, -, -, -, hops⟩ := run_hostCall hc ha hpre hdisjoint hr
  rw [hops]
  cases s.cfg.registered <;> rfl

end Sys2Proof.Machine
end
